-- ==== Sys2Proof/Word.lean ====
section
/-!
DEFINITION. The two bit-vector types of the machine (00_scope R7): the byte of
data, memory cells, addresses and opcodes, and the 9-bit program counter.
-/

namespace Sys2Proof

/-- XLEN, CELLW and AW of R7: the accumulator, a memory cell, a memory address
and an opcode byte are 8 bits. -/
abbrev Byte := BitVec 8

/-- PCW of R7 and R23: the program counter is 9 bits, so that it can hold 0x100. -/
abbrev PcWord := BitVec 9

end Sys2Proof
end

