-- ==== Sys2Proof/Config.lean ====
section
/-!
DEFINITION. What an implementation fixes (00_scope R7): the names of the 22
instructions (30_encoding R84, R90), the opcode map OPC as a parameter, and the
type of the debug configuration DBG0. The default values of the parameters
stand where a repair can reach them: the default opcode bytes in Decode.lean,
START, DBG0, the window bounds and SIGN in Machine/Params.lean.
-/

namespace Sys2Proof

/-- The ten operation families of R2. -/
inductive Family where
  | add | sub | nand | load | store | input | output | jump | brn | brz
deriving DecidableEq, Repr

/-- The three addressing modes of R2: `#`, `@` and `*@`. -/
inductive Mode where
  | imm | dir | ind
deriving DecidableEq, Repr

/-- The two modes in which an instruction names a destination address (R57):
there is no immediate STORE or IN. -/
inductive TargetMode where
  | dir | ind
deriving DecidableEq, Repr

/-- The 22 mnemonics of the closed table (R84), in its order. -/
inductive Mnemonic where
  | addImm | addDir | addInd
  | subImm | subDir | subInd
  | nandImm | nandDir | nandInd
  | loadImm | loadDir | loadInd
  | storeDir | storeInd
  | inDir | inInd
  | outImm | outDir | outInd
  | jumpDir | brnDir | brzDir
deriving DecidableEq, Repr

/-- All 22 mnemonics, in the order of R84. -/
def Mnemonic.all : List Mnemonic :=
  [.addImm, .addDir, .addInd, .subImm, .subDir, .subInd, .nandImm, .nandDir, .nandInd,
   .loadImm, .loadDir, .loadInd, .storeDir, .storeInd, .inDir, .inInd,
   .outImm, .outDir, .outInd, .jumpDir, .brnDir, .brzDir]

/-- The family column of R84. -/
def Mnemonic.family : Mnemonic → Family
  | .addImm | .addDir | .addInd => .add
  | .subImm | .subDir | .subInd => .sub
  | .nandImm | .nandDir | .nandInd => .nand
  | .loadImm | .loadDir | .loadInd => .load
  | .storeDir | .storeInd => .store
  | .inDir | .inInd => .input
  | .outImm | .outDir | .outInd => .output
  | .jumpDir => .jump
  | .brnDir => .brn
  | .brzDir => .brz

/-- The mode column of R84. -/
def Mnemonic.mode : Mnemonic → Mode
  | .addImm | .subImm | .nandImm | .loadImm | .outImm => .imm
  | .addDir | .subDir | .nandDir | .loadDir | .storeDir | .inDir | .outDir
  | .jumpDir | .brnDir | .brzDir => .dir
  | .addInd | .subInd | .nandInd | .loadInd | .storeInd | .inInd | .outInd => .ind

/-- The family's name as R84 writes it. -/
def Family.name : Family → String
  | .add => "ADD" | .sub => "SUB" | .nand => "NAND" | .load => "LOAD" | .store => "STORE"
  | .input => "IN" | .output => "OUT" | .jump => "JUMP" | .brn => "BRN" | .brz => "BRZ"

/-- The mode's suffix as R90 writes it. -/
def Mode.suffix : Mode → String
  | .imm => "#" | .dir => "@" | .ind => "*@"

/-- R90: "A mnemonic is the family name followed by the mode suffix". -/
def Mnemonic.spelling (m : Mnemonic) : String := m.family.name ++ m.mode.suffix

/-- OPC of R7 and R85: the opcode byte of each instruction, a parameter of the
decoder, the encoder and the step. `OpcodeMap.wellFormed` (WellFormed.lean) is
the injectivity R85 asks of it. -/
abbrev OpcodeMap := Mnemonic → Byte

/-- DBG0 of R7: the debug configuration at run start, supplied by the host.
`breakpointArmed` and `breakpointAddress` are the two registers of R33. -/
structure DebugConfig where
  dumpOnLoad : Bool
  stepEnabled : Bool
  verboseTrace : Bool
  journalEnabled : Bool
  breakpointArmed : Bool
  breakpointAddress : Byte
deriving DecidableEq, Repr

end Sys2Proof
end

