-- ==== Sys2Proof/Syntax.lean ====
section
/-!
DEFINITION. The instructions (30_encoding R80, R84): one constructor per row of
the closed table, each with its operand byte. The operand is one unsigned byte
used as it stands (R82).
-/

namespace Sys2Proof

/-- The 22 instructions of R84 with their operand byte `opnd`. -/
inductive Instr where
  | addImm (opnd : Byte)
  | addDir (opnd : Byte)
  | addInd (opnd : Byte)
  | subImm (opnd : Byte)
  | subDir (opnd : Byte)
  | subInd (opnd : Byte)
  | nandImm (opnd : Byte)
  | nandDir (opnd : Byte)
  | nandInd (opnd : Byte)
  | loadImm (opnd : Byte)
  | loadDir (opnd : Byte)
  | loadInd (opnd : Byte)
  | storeDir (opnd : Byte)
  | storeInd (opnd : Byte)
  | inDir (opnd : Byte)
  | inInd (opnd : Byte)
  | outImm (opnd : Byte)
  | outDir (opnd : Byte)
  | outInd (opnd : Byte)
  | jumpDir (opnd : Byte)
  | brnDir (opnd : Byte)
  | brzDir (opnd : Byte)
deriving DecidableEq, Repr

/-- The row of R84 an instruction belongs to. -/
def Instr.mnemonic : Instr → Mnemonic
  | .addImm _ => .addImm
  | .addDir _ => .addDir
  | .addInd _ => .addInd
  | .subImm _ => .subImm
  | .subDir _ => .subDir
  | .subInd _ => .subInd
  | .nandImm _ => .nandImm
  | .nandDir _ => .nandDir
  | .nandInd _ => .nandInd
  | .loadImm _ => .loadImm
  | .loadDir _ => .loadDir
  | .loadInd _ => .loadInd
  | .storeDir _ => .storeDir
  | .storeInd _ => .storeInd
  | .inDir _ => .inDir
  | .inInd _ => .inInd
  | .outImm _ => .outImm
  | .outDir _ => .outDir
  | .outInd _ => .outInd
  | .jumpDir _ => .jumpDir
  | .brnDir _ => .brnDir
  | .brzDir _ => .brzDir

/-- The operand byte of R82. -/
def Instr.operand : Instr → Byte
  | .addImm o | .addDir o | .addInd o | .subImm o | .subDir o | .subInd o
  | .nandImm o | .nandDir o | .nandInd o | .loadImm o | .loadDir o | .loadInd o
  | .storeDir o | .storeInd o | .inDir o | .inInd o | .outImm o | .outDir o | .outInd o
  | .jumpDir o | .brnDir o | .brzDir o => o

end Sys2Proof
end

