-- ==== Sys2Proof/WellFormed.lean ====
section
/-!
DEFINITION. What must hold of syntax and parameters before they mean anything.
An instruction has no check of its own to fail: its operand is a byte by type,
and "No operand value is illegal for any instruction" (R88). The opcode map OPC
has one: it is injective (R85). A program has one: it fits between START and
0xFF (D20).
-/

namespace Sys2Proof

/-- R88: all 256 values of the operand are accepted by all 22 instructions. -/
def Instr.wellFormed : Instr → Bool
  | .addImm _ | .addDir _ | .addInd _ | .subImm _ | .subDir _ | .subInd _
  | .nandImm _ | .nandDir _ | .nandInd _ | .loadImm _ | .loadDir _ | .loadInd _
  | .storeDir _ | .storeInd _ | .inDir _ | .inInd _ | .outImm _ | .outDir _ | .outInd _
  | .jumpDir _ | .brnDir _ | .brzDir _ => true

/-- R85: OPC is an injective map from the 22 mnemonics to bytes, that is, the 22
opcode bytes are pairwise distinct. -/
def OpcodeMap.wellFormed (opc : OpcodeMap) : Bool :=
  decide (Mnemonic.all.map opc).Nodup

/-- D20: the host must itself refuse a program whose tokens, written from `start`
upward (R271), run past 0xFF. -/
def programFits (start : Byte) (tokens : List Byte) : Bool :=
  decide (start.toNat + tokens.length ≤ 256)

end Sys2Proof
end

