-- ==== Sys2Proof/Decode.lean ====
section
/-!
DEFINITION. The default opcode table (30_encoding R85), the decoder (R80 to
R83) and, after it, the encoder. Decoder and encoder take the opcode map as an
argument (R85); `decode`, `encode` and `decodeTableWord` use the default table.
-/

namespace Sys2Proof

/-- The default of OPC (R85). PRESUMED (unsafe): the spec marks these bytes as
general knowledge, not from its source, and OUT# as extrapolated (log entry 1). -/
def Config.opc : OpcodeMap
  | .loadImm => 0x00
  | .outImm => 0x01
  | .jumpDir => 0x10
  | .brnDir => 0x11
  | .brzDir => 0x12
  | .addImm => 0x20
  | .subImm => 0x21
  | .nandImm => 0x22
  | .loadDir => 0x40
  | .outDir => 0x41
  | .storeDir => 0x48
  | .inDir => 0x49
  | .addDir => 0x60
  | .subDir => 0x61
  | .nandDir => 0x62
  | .loadInd => 0xC0
  | .outInd => 0xC1
  | .storeInd => 0xC8
  | .inInd => 0xC9
  | .addInd => 0xE0
  | .subInd => 0xE1
  | .nandInd => 0xE2

/-- Why bytes are no instruction. Nobody stops on this: the engine takes the step
of R155 on `unrecognized`, and it always reads two bytes (R173). -/
inductive DecodeError where
  /-- The opcode byte is outside the closed table (R87). -/
  | unrecognized (opc : Byte)
  /-- Fewer than the two bytes of R80. -/
  | truncated
deriving DecidableEq, Repr

/-- `Decode(b)` of R83: the instruction `m` with `OPC(m) = b`, if one exists. A
whole byte is matched (R81), and nothing but the byte is looked at. -/
def decodeByte (opc : OpcodeMap) (b : Byte) : Option Mnemonic :=
  Mnemonic.all.find? (fun m => opc m == b)

/-- The instruction of a row with its operand byte (R80, R82). -/
def Instr.ofMnemonic (m : Mnemonic) (opnd : Byte) : Instr :=
  match m with
  | .addImm => .addImm opnd
  | .addDir => .addDir opnd
  | .addInd => .addInd opnd
  | .subImm => .subImm opnd
  | .subDir => .subDir opnd
  | .subInd => .subInd opnd
  | .nandImm => .nandImm opnd
  | .nandDir => .nandDir opnd
  | .nandInd => .nandInd opnd
  | .loadImm => .loadImm opnd
  | .loadDir => .loadDir opnd
  | .loadInd => .loadInd opnd
  | .storeDir => .storeDir opnd
  | .storeInd => .storeInd opnd
  | .inDir => .inDir opnd
  | .inInd => .inInd opnd
  | .outImm => .outImm opnd
  | .outDir => .outDir opnd
  | .outInd => .outInd opnd
  | .jumpDir => .jumpDir opnd
  | .brnDir => .brnDir opnd
  | .brzDir => .brzDir opnd

/-- The decoder over a list of bytes: the instruction and the bytes after it, or
the reason there is none. Byte 0 is the opcode, byte 1 the operand (R80). -/
def decodeWith (opc : OpcodeMap) : List Byte → Except DecodeError (Instr × List Byte)
  | b :: opnd :: rest =>
    match decodeByte opc b with
    | some m => .ok (Instr.ofMnemonic m opnd, rest)
    | none => .error (.unrecognized b)
  | _ => .error .truncated

/-- The decoder with the default opcode table. -/
def decode (bytes : List Byte) : Except DecodeError (Instr × List Byte) :=
  decodeWith Config.opc bytes

/-- The two bytes of an instruction whose bits are `w`, numbered as
spec/opcode_table.json numbers them: the opcode byte is bits 7..0 and the operand
byte bits 15..8 (R80); every bit from `nbits` up is 0. -/
def tableWordBytes (nbits w : Nat) : Byte × Byte :=
  (BitVec.ofNat 8 (w % 2 ^ nbits), BitVec.ofNat 8 (w % 2 ^ nbits / 256))

/-- The instruction the decoder reads from such a word. -/
def decodeTableWord (nbits w : Nat) : Option Instr :=
  match decode [(tableWordBytes nbits w).1, (tableWordBytes nbits w).2] with
  | .ok (i, _) => some i
  | .error _ => none

/-- The encoder (R80): the opcode byte of the row, then the operand byte. -/
def encodeWith (opc : OpcodeMap) (i : Instr) : List Byte := [opc i.mnemonic, i.operand]

/-- The encoder with the default opcode table. -/
def encode (i : Instr) : List Byte := encodeWith Config.opc i

end Sys2Proof
end

