-- ==== Sys2Proof/Machine/Params.lean ====
section
/-!
DEFINITION. The fixed numbers of the run window and the sign bit (00_scope R7),
and the default values of the parameters START and DBG0, which State.reset uses.
-/

namespace Sys2Proof

/-- RUN_LO of R7: the exclusive lower bound of the run window. -/
def Config.runLo : PcWord := 0x1F

/-- RUN_HI of R7: the exclusive upper bound of the run window. -/
def Config.runHi : PcWord := 0xFF

/-- SIGN of R7: the accumulator bit tested by BRN. -/
def Config.sign : Byte := 0x80

/-- The default of START (R7, D2). DESIGN CHOICE (unsafe for a claim about
State.reset alone): the spec recommends 0x20, its source names no value (log entry 2). -/
def Config.start : Byte := 0x20

/-- The default of DBG0. DESIGN CHOICE (unsafe for a claim about State.reset
alone): R38 gives no default, and every flag is off here (log entry 3). -/
def Config.dbg0 : DebugConfig where
  dumpOnLoad := false
  stepEnabled := false
  verboseTrace := false
  journalEnabled := false
  breakpointArmed := false
  breakpointAddress := 0x00

end Sys2Proof
end

