-- ==== Sys2Proof/Machine/State.lean ====
section
/-!
DEFINITION. The state of the machine as plain data (10_state R20 to R38), the
queues that hold what the host has sent and the core has not yet consumed
(R10), the run's event list (R180), the ways a step can stop, and reset.
-/

namespace Sys2Proof.Machine

/-- The memory M of R26 and R50 as the list of its cells that differ from what an
unlisted cell reads as (`Memory.unlisted`, Ops.lean), in rising order of address. -/
abbrev Memory := List Host.Cell

/-- RS of R30. -/
inductive RunState where
  | run | haltOut | stopRange | fatalInput
deriving DecidableEq, Repr

/-- PH of R35: where inside a cycle the sequencer stands when it waits. -/
inductive Phase where
  | idle | bpWait | stepWait | inWait | load
deriving DecidableEq, Repr

/-- One item of the input port (R130): a byte, or input the host could not present
as one byte (D9). -/
inductive InputItem where
  | byte (b : Byte)
  | malformed
deriving DecidableEq, Repr

/-- One line typed at the stepper, without its terminating newline (R211). -/
abbrev Line := List Char

/-- What a line means to the stepper (R210, R211). -/
inductive StepperCommand where
  | none | stopStepper | print | stopPrint
deriving DecidableEq, Repr

/-- One move of the loader: the write port `ld_we`, `ld_addr`, `ld_data`, or the
`run` signal that ends the load phase (R271, R278). -/
inductive LoadMove where
  | write (addr value : Byte)
  | run
deriving DecidableEq, Repr

/-- The record of a cycle (R206), field by field. `mnemonic` is `none` for an
unrecognized opcode (D11). -/
structure Record where
  cyc : Nat
  pc : PcWord
  opcAddr : PcWord
  opcVal : Byte
  opdAddr : PcWord
  opdVal : Byte
  acc : Byte
  mnemonic : Option Mnemonic
  operand : Byte
deriving DecidableEq, Repr

/-- The events of R180, and `dump` of the load phase (R220). -/
inductive Event where
  | dump (addr value : Byte)
  | bpHit (cyc : Nat) (pc : PcWord) (addr : Byte)
  | journal (r : Record)
  | trace (r : Record)
  | prompt (pc : PcWord) (a : Byte)
  | out (v : Byte)
  | narr (pc : PcWord) (mnemonic : Mnemonic) (opnd : Byte) (aAfter : Byte)
      (written : Option (Byte × Byte))
  | illegal (pc : PcWord) (opc : Byte)
  /-- `FATAL(InputMalformed)`: the one reason there is (R134). -/
  | fatalInputMalformed
deriving DecidableEq, Repr

/-- Everything the spec gives the machine (R20), then what the host has sent and
the machine has not consumed yet (R10, R130, R202, R209, R271), then the events of
the run (R178, R180). -/
structure State where
  /-- A (R21). -/
  a : Byte
  /-- PC (R22, R23). -/
  pc : PcWord
  /-- M[0..255] (R26, R50). -/
  mem : Memory
  /-- CYC (R27), an unbounded natural number. -/
  cyc : Nat
  /-- RS (R30). -/
  rs : RunState
  /-- PH (R35). -/
  ph : Phase
  /-- The stepper flag (R29). -/
  stepping : Bool
  /-- The verbose-trace flag (R31). -/
  verboseTrace : Bool
  /-- The journal-enabled flag (R32). -/
  journalEnabled : Bool
  /-- The breakpoint's presence bit (R33). -/
  breakpointArmed : Bool
  /-- The breakpoint's address (R33). -/
  breakpointAddress : Byte
  /-- The ram-dump flag (R34). -/
  dumpOnLoad : Bool
  /-- The model's own: in phase LOAD, a RAM-dump pause waits for its line (R220).
  DESIGN CHOICE (safe): PH has no value for that pause (log entry 8). -/
  dumpPause : Bool
  /-- IN items sent and not yet consumed, oldest first (R130). -/
  inItems : List InputItem
  /-- Resume events sent and not yet consumed; their content is ignored (R202). -/
  resumes : Nat
  /-- Stepper lines sent and not yet consumed, oldest first (R209). -/
  lines : List Line
  /-- Loader moves sent and not yet performed, oldest first (R271). -/
  loads : List LoadMove
  /-- The run's event list, oldest first (R178, R180). -/
  events : List Event
deriving DecidableEq, Repr

/-- Why the machine stops with a fault. -/
inductive Fault where
  /-- Raised by `step` in run state FATAL_INPUT, that is, after an IN took a
  malformed item (R134): R242 says to treat the abort as a fault. Safe: the machine
  sits there until reset and changes nothing. -/
  | inputMalformed
  /-- Raised by `step` when it stands inside a cycle with a PC whose opcode or
  operand cell is outside 0x00 to 0xFF: "fails loudly rather than wrapping" (R63,
  U7). Safe: no run reaches it. -/
  | addressOutOfRange
deriving DecidableEq, Repr

/-- Why an instruction has no meaning. -/
inductive Refusal where
  /-- Raised by an arm of `exec` whose instruction has no meaning yet. Safe. No arm
  raises it: every row of the table has its meaning. -/
  | notModelled (mnemonic : String)
deriving DecidableEq, Repr

/-- The parameters a run begins with (R7): START, DBG0 and MEM0. -/
structure RunParams where
  start : Byte
  dbg : DebugConfig
  mem0 : Memory
deriving DecidableEq, Repr

/-- The machine right after reset (R38, R270): `A = 0`, `PC = START`, `CYC = 0`,
`RS = RUN`, the debug flags from DBG0, memory MEM0, and the phase LOAD. The host
has sent nothing and the new run has no event (log entries 5 and 6). -/
def State.resetWith (p : RunParams) : State where
  a := 0
  pc := p.start.setWidth 9
  mem := p.mem0
  cyc := 0
  rs := .run
  ph := .load
  stepping := p.dbg.stepEnabled
  verboseTrace := p.dbg.verboseTrace
  journalEnabled := p.dbg.journalEnabled
  breakpointArmed := p.dbg.breakpointArmed
  breakpointAddress := p.dbg.breakpointAddress
  dumpOnLoad := p.dbg.dumpOnLoad
  dumpPause := false
  inItems := []
  resumes := 0
  lines := []
  loads := []
  events := []

/-- Reset with the default parameters: START 0x20, every debug flag off, and a
memory that lists nothing (log entries 2, 3 and 4). -/
def State.reset : State :=
  State.resetWith ⟨Config.start, Config.dbg0, []⟩

end Sys2Proof.Machine
end

