-- ==== Sys2Proof/Machine/Ops.lean ====
section
/-!
DEFINITION. The named operations over memory, registers, the event list and the
host's queues (00_scope R9, 20_memory R50 to R67, 44_runloop R175 and R180). There
is no trap entry and no trap return (60_exceptions R246, R247): the one shared
operation that ends a run is `State.halt`, and reset is the only way back.
-/

namespace Sys2Proof.Machine

/-! ### Memory -/

/-- What an unlisted cell reads as. DESIGN CHOICE (unsafe): R38 leaves the cells
the loader did not write unspecified (D5, U5), and this model reads 0x00 there
(log entry 4). A claim over all states holds for every MEM0 all the same. -/
def Memory.unlisted : Byte := 0x00

/-- `M[addr]` (R51): the listed byte, or what an unlisted cell reads as. -/
def Memory.read : Memory → Byte → Byte
  | [], _ => Memory.unlisted
  | (k, v) :: rest, addr => if k = addr.toNat then v else Memory.read rest addr

/-- The memory with no entry for a cell. -/
def Memory.erase (m : Memory) (addr : Byte) : Memory :=
  m.filter (fun c => c.1 != addr.toNat)

/-- An entry put at its place in the rising order of addresses. -/
def Memory.insert : Memory → Byte → Byte → Memory
  | [], addr, v => [(addr.toNat, v)]
  | (k, w) :: rest, addr, v =>
    if addr.toNat < k then (addr.toNat, v) :: (k, w) :: rest
    else (k, w) :: Memory.insert rest addr v

/-- `M[addr] <- v` (R51), keeping the canonical form: a cell that gets the byte an
unlisted cell reads as is unlisted. -/
def Memory.write (m : Memory) (addr v : Byte) : Memory :=
  if v = Memory.unlisted then m.erase addr else (m.erase addr).insert addr v

/-- The canonical form: addresses strictly rising, all in 0x00 to 0xFF (R50), and
no entry that reads as an unlisted cell does. -/
def Memory.wf (m : Memory) : Bool :=
  decide ((m.map Prod.fst).Pairwise (· < ·)) &&
    m.all (fun c => decide (c.1 < 256) && c.2 != Memory.unlisted)

/-! ### Single-field updates -/

/-- `A <- v` (R9). -/
def State.setA (s : State) (v : Byte) : State := { s with a := v }

/-- `PC <- t` (R9). -/
def State.setPc (s : State) (t : PcWord) : State := { s with pc := t }

/-- The memory replaced, for `memWrite`. -/
def State.setMem (s : State) (m : Memory) : State := { s with mem := m }

/-- `CYC` replaced, for `tick`. -/
def State.setCyc (s : State) (n : Nat) : State := { s with cyc := n }

/-- `RS` replaced, for `halt`. -/
def State.setRs (s : State) (r : RunState) : State := { s with rs := r }

/-- `PH` replaced (R182). -/
def State.setPh (s : State) (p : Phase) : State := { s with ph := p }

/-- The stepper flag replaced (R210). -/
def State.setStepping (s : State) (b : Bool) : State := { s with stepping := b }

/-- The verbose-trace flag replaced (R210). -/
def State.setVerboseTrace (s : State) (b : Bool) : State := { s with verboseTrace := b }

/-- The RAM-dump pause bit replaced (R220). -/
def State.setDumpPause (s : State) (b : Bool) : State := { s with dumpPause := b }

/-- The IN queue replaced. -/
def State.setInItems (s : State) (l : List InputItem) : State := { s with inItems := l }

/-- The count of resume events replaced. -/
def State.setResumes (s : State) (n : Nat) : State := { s with resumes := n }

/-- The queue of stepper lines replaced. -/
def State.setLines (s : State) (l : List Line) : State := { s with lines := l }

/-- The queue of loader moves replaced. -/
def State.setLoads (s : State) (l : List LoadMove) : State := { s with loads := l }

/-- `emit E` (R9, R180): the event is appended to the run's list. -/
def State.emit (s : State) (e : Event) : State := { s with events := s.events ++ [e] }

/-! ### Reads, writes and the program counter -/

/-- `MemRead(addr, 1)` (R51). -/
def memRead (addr : Byte) (s : State) : Byte := s.mem.read addr

/-- `MemWrite(addr, 1, v)` (R51). -/
def memWrite (addr v : Byte) (s : State) : State := s.setMem (s.mem.write addr v)

/-- `PC <- PC + 2`, in 9 bits (R8, R23). -/
def State.advance (s : State) : State := s.setPc (s.pc + 2)

/-- `PC <- zext_9(opnd)` (R82, R153). -/
def State.jumpTo (s : State) (opnd : Byte) : State := s.setPc (opnd.setWidth 9)

/-- The run-window test `0x1F < PC < 0xFF`, on the full 9-bit PC (R171). -/
def inWindow (pc : PcWord) : Bool := decide (Config.runLo < pc) && decide (pc < Config.runHi)

/-- `M[PC]` and `M[PC + 1]` are cells of the memory (R63). -/
def fetchable (pc : PcWord) : Bool := decide (pc.toNat + 1 ≤ 0xFF)

/-- The opcode byte `M[PC]` (R9). -/
def fetchOpc (s : State) : Byte := memRead (s.pc.setWidth 8) s

/-- The operand byte `M[PC + 1]` (R9). -/
def fetchOpnd (s : State) : Byte := memRead ((s.pc + 1).setWidth 8) s

/-- `CYC <- CYC + 1` (R27, R172 step 1). -/
def State.tick (s : State) : State := s.setCyc (s.cyc + 1)

/-! ### Ending a run -/

/-- `halt(reason)` of R175, the only writer of `RS` besides reset. -/
def State.halt (s : State) (reason : RunState) : State := s.setRs reason

/-- `raise FatalInput` (R134): the event, then `RS <- FATAL_INPUT`; nothing is
stored and the PC is not written. -/
def State.raiseFatalInput (s : State) : State :=
  (s.emit .fatalInputMalformed).halt .fatalInput

/-- Reset, applicable at any time (R270): no state survives it. -/
def State.applyReset (_ : State) (p : RunParams) : State := State.resetWith p

/-! ### The input port -/

/-- What `InputByte()` finds (R131). -/
inductive InputResult where
  | waiting
  | byte (b : Byte) (s : State)
  | malformed (s : State)
deriving DecidableEq, Repr

/-- `InputByte()` of R131: takes the next item, if there is one. -/
def inputByte (s : State) : InputResult :=
  match s.inItems with
  | [] => .waiting
  | .byte b :: rest => .byte b (s.setInItems rest)
  | .malformed :: rest => .malformed (s.setInItems rest)

/-! ### The arithmetic of R110 -/

/-- ADD: `(A + v) mod 256`. -/
def aluAdd (a v : Byte) : Byte := a + v

/-- SUB: `(A - v) mod 256`. -/
def aluSub (a v : Byte) : Byte := a - v

/-- NAND: `(~(A & v)) & 0xFF`. -/
def aluNand (a v : Byte) : Byte := ~~~(a &&& v)

/-! ### Narration -/

/-- `NARR(pc, mnemonic, opnd, a_after, written)` of R179: `pc` is the address of
the instruction, `a_after` the accumulator the state holds when it is emitted. -/
def State.narrate (s : State) (pc : PcWord) (m : Mnemonic) (opnd : Byte)
    (written : Option (Byte × Byte)) : State :=
  s.emit (.narr pc m opnd s.a written)

/-! ### Placing an instruction -/

/-- The state with two bytes at the PC and its opcode's neighbour, made ready so
that the next step runs them: phase IDLE, run state RUN, no breakpoint and no
stepper to wait for, and a PC in the run window. -/
def State.place (s : State) (opc opnd : Byte) : State :=
  let pc := if inWindow s.pc then s.pc else Config.start.setWidth 9
  { s with
    pc := pc
    mem := (s.mem.write (pc.setWidth 8) opc).write ((pc + 1).setWidth 8) opnd
    rs := .run
    ph := .idle
    stepping := false
    breakpointArmed := false }

end Sys2Proof.Machine
end

