-- ==== Sys2Proof/Machine/Debug.lean ====
section
/-!
DEFINITION. The debug controller (45_debug R200 to R216, R220): the breakpoint
comparator, the record with its two sinks, the stepper and its commands, and the
RAM dump's event. It writes `stepping` and `verboseTrace` and nothing else of the
machine (R215); the phase is the sequencer's (R182).
-/

namespace Sys2Proof.Machine

/-! ### The breakpoint -/

/-- `Fires(PC, t) = (PC = t) or (PC + 1 = t)` (R201). -/
def fires (pc : PcWord) (t : Byte) : Bool := pc == t.setWidth 9 || pc + 1 == t.setWidth 9

/-- The comparator's answer in this state: armed and firing (R33, R201). -/
def breakpointFires (s : State) : Bool := s.breakpointArmed && fires s.pc s.breakpointAddress

/-- The pause begins (R202, R182): `BP_HIT(cyc, pc, addr)` and the phase BP_WAIT. -/
def enterBpWait (s : State) : State :=
  (s.emit (.bpHit s.cyc s.pc s.breakpointAddress)).setPh .bpWait

/-! ### The record and its two sinks -/

/-- `Record()` of R206, taken before the engine step. -/
def record (opc : OpcodeMap) (s : State) : Record where
  cyc := s.cyc
  pc := s.pc
  opcAddr := s.pc
  opcVal := fetchOpc s
  opdAddr := s.pc + 1
  opdVal := fetchOpnd s
  acc := s.a
  mnemonic := decodeByte opc (fetchOpc s)
  operand := fetchOpnd s

/-- Journal-write (R207). -/
def journalWrite (opc : OpcodeMap) (s : State) : State :=
  if s.journalEnabled then s.emit (.journal (record opc s)) else s

/-- Console-trace (R208). -/
def consoleTrace (opc : OpcodeMap) (s : State) : State :=
  if s.verboseTrace then s.emit (.trace (record opc s)) else s

/-! ### The stepper -/

/-- The prompt appears (R209, R212, R182): `PROMPT(PC, A)` and the phase STEP_WAIT. -/
def enterStepWait (s : State) : State := (s.emit (.prompt s.pc s.a)).setPh .stepWait

/-- An ASCII capital letter as its small letter, any other character unchanged.
DEDUCED (safe): R211 says "case-insensitive" of three ASCII words, and only ASCII
case is taken (log entry 9). -/
def lowerChar (c : Char) : Char :=
  if 65 ≤ c.toNat ∧ c.toNat ≤ 90 then Char.ofNat (c.toNat + 32) else c

/-- The three command words of R210. -/
def wordStopStepper : Line := ['s', 't', 'o', 'p', '_', 's', 't', 'e', 'p', 'p', 'e', 'r']

/-- `print` (R210). -/
def wordPrint : Line := ['p', 'r', 'i', 'n', 't']

/-- `stop_print` (R210). -/
def wordStopPrint : Line := ['s', 't', 'o', 'p', '_', 'p', 'r', 'i', 'n', 't']

/-- Classifying a line (R211): compared with the three words ignoring letter case,
exactly, with nothing stripped; any other line is no command. -/
def classifyLine (l : Line) : StepperCommand :=
  if l.map lowerChar = wordStopStepper then .stopStepper
  else if l.map lowerChar = wordPrint then .print
  else if l.map lowerChar = wordStopPrint then .stopPrint
  else .none

/-- `ApplyCommand` of R210. -/
def applyCommand (c : StepperCommand) (s : State) : State :=
  match c with
  | .none => s
  | .stopStepper => s.setStepping false
  | .print => s.setVerboseTrace true
  | .stopPrint => s.setVerboseTrace false

/-! ### The RAM dump -/

/-- What `dumpOnLoad` adds to the load of one cell (R220): `DUMP(addr, value)`, and
a pause after it when the stepper is on. -/
def dumpCell (addr v : Byte) (s : State) : State :=
  if s.dumpOnLoad then (s.emit (.dump addr v)).setDumpPause s.stepping else s

end Sys2Proof.Machine
end

