-- ==== Sys2Proof/Machine/Load.lean ====
section
/-!
DEFINITION. The load phase (70_reset_and_hazards R271, 45_debug R220, 44_runloop
R182): the host's loader writes cells, each is dumped if `dumpOnLoad` says so, and
`run` ends the phase.
-/

namespace Sys2Proof.Machine

/-- One move of the load phase. A RAM-dump pause takes one stepper line and applies
it as at run time (R220, D20). Otherwise the loader's next move is performed. With
nothing sent the phase waits. No cycle runs and `CYC` stays as it is (R271). -/
def loadStep (s : State) : State :=
  if s.dumpPause then
    match s.lines with
    | [] => s
    | l :: rest => (applyCommand (classifyLine l) (s.setLines rest)).setDumpPause false
  else
    match s.loads with
    | [] => s
    | .write addr v :: rest => dumpCell addr v (memWrite addr v (s.setLoads rest))
    | .run :: rest => (s.setLoads rest).setPh .idle

/-- The loader's writes for a list of tokens: token number k goes to `M[START + k]`
(R271). -/
def tokenWrites : Byte → List Byte → List LoadMove
  | _, [] => []
  | addr, t :: ts => .write addr t :: tokenWrites (addr + 1) ts

/-- What the host's loader sends for a program (R271): its writes, then `run`. A
program that runs past 0xFF is refused by the host (D20). -/
def loaderScript (start : Byte) (tokens : List Byte) : Option (List LoadMove) :=
  if programFits start tokens then some (tokenWrites start tokens ++ [.run]) else none

end Sys2Proof.Machine
end

