-- ==== Sys2Proof/Machine/HostInterface.lean ====
section
/-!
DEFINITION. What the host can do to the machine (70_reset_and_hazards R278, R281):
reset it at any time, use the load port in phase LOAD, and answer a wait. The
host never writes PC, A, M or a flag during a run.
-/

namespace Sys2Proof.Machine

/-- The host's moves: the input ports of R278. -/
inductive HostMove where
  | reset (p : RunParams)
  | load (m : LoadMove)
  | resume
  | line (l : Line)
  | item (it : InputItem)
deriving DecidableEq, Repr

/-- The machine asks for this move: `bp_req`, `step_req` (or a RAM-dump pause),
`in_req`, or the load phase (R278, R281). Reset is always possible (R270). -/
def asksFor (s : State) : HostMove → Bool
  | .reset _ => true
  | .load _ => s.ph == .load
  | .resume => s.ph == .bpWait && s.resumes == 0
  | .line _ => (s.ph == .stepWait || s.dumpPause) && s.lines.isEmpty
  | .item _ => s.ph == .inWait && s.inItems.isEmpty

/-- A move of the host arrives. The load port is honoured only in phase LOAD
(R278); a key pressed before a breakpoint fires is not a resume event (R202). DESIGN
CHOICE (safe): a line or item nobody asked for is dropped too, which R281 assumes
the host never sends (log entry 5). -/
def hostSend (m : HostMove) (s : State) : State :=
  if asksFor s m then
    match m with
    | .reset p => s.applyReset p
    | .load mv => s.setLoads (s.loads ++ [mv])
    | .resume => s.setResumes (s.resumes + 1)
    | .line l => s.setLines (s.lines ++ [l])
    | .item it => s.setInItems (s.inItems ++ [it])
  else s

end Sys2Proof.Machine
end

