-- ==== Sys2Proof/Machine/Ports.lean ====
section
/-!
DEFINITION. The output side of the block as functions of the state: the level
outputs of 70_reset_and_hazards R278, the codes of 10_state R30 and R35, and the
two sinks of the events (44_runloop R180). The strobes of R278 (`out_valid`,
`rec_journal`, `narr_valid` and the rest) are the events themselves.
-/

namespace Sys2Proof.Machine

/-- The encoding of RS (R30). -/
def RunState.code : RunState → BitVec 2
  | .run => 0
  | .haltOut => 1
  | .stopRange => 2
  | .fatalInput => 3

/-- The encoding of PH (R35). -/
def Phase.code : Phase → BitVec 3
  | .idle => 0
  | .bpWait => 1
  | .stepWait => 2
  | .inWait => 3
  | .load => 4

/-- The 2-bit code of a stepper line on the port `step_cmd` (R211). -/
def StepperCommand.code : StepperCommand → BitVec 2
  | .none => 0
  | .stopStepper => 1
  | .print => 2
  | .stopPrint => 3

/-- `in_req`: high in phase IN_WAIT (R278). -/
def portInReq (s : State) : Bool := s.ph == .inWait

/-- `bp_req`: high in phase BP_WAIT (R278). -/
def portBpReq (s : State) : Bool := s.ph == .bpWait

/-- `step_req`: high in phase STEP_WAIT (R278). -/
def portStepReq (s : State) : Bool := s.ph == .stepWait

/-- `step_pc`, `step_a`: the fields of the prompt (R212, R278). -/
def portStepPrompt (s : State) : PcWord × Byte := (s.pc, s.a)

/-- `rs`: the run state (R278). -/
def portRs (s : State) : BitVec 2 := s.rs.code

/-- `dbg_pc`, `dbg_a`, `dbg_cyc`: the state for observation (R278). -/
def portDbg (s : State) : PcWord × Byte × Nat := (s.pc, s.a, s.cyc)

/-- Where an event goes (R180). -/
inductive Sink where
  | console | journal
deriving DecidableEq, Repr

/-- The sink column of R180. DEDUCED (safe): `dump` is printed (R220), so it goes to
the console (log entry 10). -/
def Event.sink : Event → Sink
  | .journal _ => .journal
  | .dump _ _ | .bpHit _ _ _ | .trace _ | .prompt _ _ | .out _ | .narr _ _ _ _ _
  | .illegal _ _ | .fatalInputMalformed => .console

/-- The events one sink has received, oldest first. -/
def sinkLog (k : Sink) (s : State) : List Event := s.events.filter (fun e => e.sink == k)

end Sys2Proof.Machine
end

