-- ==== Sys2Proof/Machine/Operands.lean ====
section
/-!
DEFINITION. The addressing-mode multiplexer (20_memory R56, R57): the source
value of ADD, SUB, NAND, LOAD and OUT, and the destination address of STORE and
IN. The operand and the pointer are used as they stand, as unsigned addresses.
-/

namespace Sys2Proof.Machine

/-- `Value(mode)` of R56. -/
def value (mode : Mode) (opnd : Byte) (s : State) : Byte :=
  match mode with
  | .imm => opnd
  | .dir => memRead opnd s
  | .ind => memRead (memRead opnd s) s

/-- `Target(mode)` of R57. -/
def target (mode : TargetMode) (opnd : Byte) (s : State) : Byte :=
  match mode with
  | .dir => opnd
  | .ind => memRead opnd s

end Sys2Proof.Machine
end

