-- ==== Sys2Proof/Machine/Alu.lean ====
section
/-!
DEFINITION. The ALU instructions (40_alu R100 to R111). Each reads A and one
value, writes A, adds 2 to the PC and narrates.
-/

namespace Sys2Proof.Machine

/-- What the nine have in common (R100): `A <- f(A, v)`, `PC <- PC + 2`, narration. -/
def aluMeaning (f : Byte → Byte → Byte) (m : Mnemonic) (mode : Mode) (opnd : Byte)
    (s : State) : Host.Outcome State Fault Refusal :=
  .next (((s.setA (f s.a (value mode opnd s))).advance).narrate s.pc m opnd none)

/-- ADD# (R101). -/
def execAddImm (opnd : Byte) (s : State) : Host.Outcome State Fault Refusal :=
  aluMeaning aluAdd .addImm .imm opnd s

/-- ADD@ (R102). -/
def execAddDir (opnd : Byte) (s : State) : Host.Outcome State Fault Refusal :=
  aluMeaning aluAdd .addDir .dir opnd s

/-- ADD*@ (R103). -/
def execAddInd (opnd : Byte) (s : State) : Host.Outcome State Fault Refusal :=
  aluMeaning aluAdd .addInd .ind opnd s

/-- SUB# (R104). -/
def execSubImm (opnd : Byte) (s : State) : Host.Outcome State Fault Refusal :=
  aluMeaning aluSub .subImm .imm opnd s

/-- SUB@ (R105). -/
def execSubDir (opnd : Byte) (s : State) : Host.Outcome State Fault Refusal :=
  aluMeaning aluSub .subDir .dir opnd s

/-- SUB*@ (R106). -/
def execSubInd (opnd : Byte) (s : State) : Host.Outcome State Fault Refusal :=
  aluMeaning aluSub .subInd .ind opnd s

/-- NAND# (R107). -/
def execNandImm (opnd : Byte) (s : State) : Host.Outcome State Fault Refusal :=
  aluMeaning aluNand .nandImm .imm opnd s

/-- NAND@ (R108). -/
def execNandDir (opnd : Byte) (s : State) : Host.Outcome State Fault Refusal :=
  aluMeaning aluNand .nandDir .dir opnd s

/-- NAND*@ (R109). -/
def execNandInd (opnd : Byte) (s : State) : Host.Outcome State Fault Refusal :=
  aluMeaning aluNand .nandInd .ind opnd s

end Sys2Proof.Machine
end

