-- ==== Sys2Proof/Machine/Flags.lean ====
section
/-!
DEFINITION. The two branch conditions (10_state R25). There is no stored flag:
no instruction records a carry, borrow, overflow, sign or zero outcome, and both
conditions are computed from the accumulator when the branch executes.
-/

namespace Sys2Proof.Machine

/-- N of R25: `A[7] = 1`, the bit 0x80 of the accumulator. -/
def isNegative (a : Byte) : Bool := a &&& Config.sign != 0

/-- Z of R25: `A = 0x00`. -/
def isZero (a : Byte) : Bool := a == 0

end Sys2Proof.Machine
end

