-- ==== Sys2Proof/Machine/Control.lean ====
section
/-!
DEFINITION. Control transfer (43_control R150 to R154) and the unrecognized
opcode (R155). A taken transfer replaces the PC with the operand byte itself
(R153, C1).
-/

namespace Sys2Proof.Machine

/-- A branch (R151, R152): `PC <- zext_9(opnd)` if taken, else `PC <- PC + 2`. -/
def branchMeaning (taken : Bool) (m : Mnemonic) (opnd : Byte) (s : State) :
    Host.Outcome State Fault Refusal :=
  .next ((if taken then s.jumpTo opnd else s.advance).narrate s.pc m opnd none)

/-- JUMP@ (R150). -/
def execJumpDir (opnd : Byte) (s : State) : Host.Outcome State Fault Refusal :=
  .next ((s.jumpTo opnd).narrate s.pc .jumpDir opnd none)

/-- BRN@ (R151). -/
def execBrnDir (opnd : Byte) (s : State) : Host.Outcome State Fault Refusal :=
  branchMeaning (isNegative s.a) .brnDir opnd s

/-- BRZ@ (R152). -/
def execBrzDir (opnd : Byte) (s : State) : Host.Outcome State Fault Refusal :=
  branchMeaning (isZero s.a) .brzDir opnd s

/-- The engine step on an unrecognized opcode byte (R155): `ILLEGAL(PC, opc)`, and
PC, A and M are not written; the run does not halt. -/
def unrecognizedStep (opc : Byte) (s : State) : State := s.emit (.illegal s.pc opc)

end Sys2Proof.Machine
end

