-- ==== Sys2Proof/Machine/InputOutput.lean ====
section
/-!
DEFINITION. The input and output instructions (42_io R130 to R141). IN takes one
host item and stores it; while there is none the cycle waits in phase IN_WAIT
(R131, R182). OUT emits a value and halts; OUT# and OUT@ leave the PC, OUT*@
advances it (R136).
-/

namespace Sys2Proof.Machine

/-- IN (R132 to R134). No item: the cycle waits, only PH says so. A byte: it is
stored at the target, the PC advances, the instruction narrates. A malformed item:
`FatalInput`, with no store, no PC update and no narration. -/
def inMeaning (m : Mnemonic) (mode : TargetMode) (opnd : Byte) (s : State) :
    Host.Outcome State Fault Refusal :=
  match inputByte s with
  | .waiting => .next (s.setPh .inWait)
  | .byte b s1 =>
    .next ((((memWrite (target mode opnd s) b s1).advance).setPh .idle).narrate s.pc m opnd
      (some (target mode opnd s, b)))
  | .malformed s1 => .next ((s1.setPh .idle).raiseFatalInput)

/-- What the three OUT forms have in common (R136, R140): `OUT(v)`, then the
narration with the address of the instruction and no written cell, then the halt. -/
def outEmit (m : Mnemonic) (mode : Mode) (opnd : Byte) (s : State) : State :=
  (((s.emit (.out (value mode opnd s))).narrate s.pc m opnd none)).halt .haltOut

/-- IN@ (R132). -/
def execInDir (opnd : Byte) (s : State) : Host.Outcome State Fault Refusal :=
  inMeaning .inDir .dir opnd s

/-- IN*@ (R133). -/
def execInInd (opnd : Byte) (s : State) : Host.Outcome State Fault Refusal :=
  inMeaning .inInd .ind opnd s

/-- OUT# (R137): the PC is not written. -/
def execOutImm (opnd : Byte) (s : State) : Host.Outcome State Fault Refusal :=
  .next (outEmit .outImm .imm opnd s)

/-- OUT@ (R138): the PC is not written. -/
def execOutDir (opnd : Byte) (s : State) : Host.Outcome State Fault Refusal :=
  .next (outEmit .outDir .dir opnd s)

/-- OUT*@ (R139): the PC advances by 2, asymmetric with the two other forms. -/
def execOutInd (opnd : Byte) (s : State) : Host.Outcome State Fault Refusal :=
  .next ((outEmit .outInd .ind opnd s).advance)

end Sys2Proof.Machine
end

