-- ==== Sys2Proof/Machine/Transfer.lean ====
section
/-!
DEFINITION. The transfer instructions (41_transfer R120 to R126): LOAD copies a
value into A, STORE copies A into one memory cell.
-/

namespace Sys2Proof.Machine

/-- LOAD (R120): `A <- v`, `PC <- PC + 2`, narration. -/
def loadMeaning (m : Mnemonic) (mode : Mode) (opnd : Byte) (s : State) :
    Host.Outcome State Fault Refusal :=
  .next (((s.setA (value mode opnd s)).advance).narrate s.pc m opnd none)

/-- STORE (R120): `M[t] <- A`, `PC <- PC + 2`, narration with the cell written. The
pointer is read before the write (R125). -/
def storeMeaning (m : Mnemonic) (mode : TargetMode) (opnd : Byte) (s : State) :
    Host.Outcome State Fault Refusal :=
  .next (((memWrite (target mode opnd s) s.a s).advance).narrate s.pc m opnd
    (some (target mode opnd s, s.a)))

/-- LOAD# (R121). -/
def execLoadImm (opnd : Byte) (s : State) : Host.Outcome State Fault Refusal :=
  loadMeaning .loadImm .imm opnd s

/-- LOAD@ (R122). -/
def execLoadDir (opnd : Byte) (s : State) : Host.Outcome State Fault Refusal :=
  loadMeaning .loadDir .dir opnd s

/-- LOAD*@ (R123). -/
def execLoadInd (opnd : Byte) (s : State) : Host.Outcome State Fault Refusal :=
  loadMeaning .loadInd .ind opnd s

/-- STORE@ (R124). -/
def execStoreDir (opnd : Byte) (s : State) : Host.Outcome State Fault Refusal :=
  storeMeaning .storeDir .dir opnd s

/-- STORE*@ (R125). -/
def execStoreInd (opnd : Byte) (s : State) : Host.Outcome State Fault Refusal :=
  storeMeaning .storeInd .ind opnd s

end Sys2Proof.Machine
end

