-- ==== Sys2Proof/Machine/Dispatch.lean ====
section
/-!
DEFINITION. The dispatch of the engine step (44_runloop R173): one arm per row of
the closed table, each one call of its meaning.
-/

namespace Sys2Proof.Machine

def exec (i : Instr) (s : State) : Host.Outcome State Fault Refusal :=
  match i with
  | .addImm opnd => Sys2Proof.Machine.execAddImm opnd s
  | .addDir opnd => Sys2Proof.Machine.execAddDir opnd s
  | .addInd opnd => Sys2Proof.Machine.execAddInd opnd s
  | .subImm opnd => Sys2Proof.Machine.execSubImm opnd s
  | .subDir opnd => Sys2Proof.Machine.execSubDir opnd s
  | .subInd opnd => Sys2Proof.Machine.execSubInd opnd s
  | .nandImm opnd => Sys2Proof.Machine.execNandImm opnd s
  | .nandDir opnd => Sys2Proof.Machine.execNandDir opnd s
  | .nandInd opnd => Sys2Proof.Machine.execNandInd opnd s
  | .loadImm opnd => Sys2Proof.Machine.execLoadImm opnd s
  | .loadDir opnd => Sys2Proof.Machine.execLoadDir opnd s
  | .loadInd opnd => Sys2Proof.Machine.execLoadInd opnd s
  | .storeDir opnd => Sys2Proof.Machine.execStoreDir opnd s
  | .storeInd opnd => Sys2Proof.Machine.execStoreInd opnd s
  | .inDir opnd => Sys2Proof.Machine.execInDir opnd s
  | .inInd opnd => Sys2Proof.Machine.execInInd opnd s
  | .outImm opnd => Sys2Proof.Machine.execOutImm opnd s
  | .outDir opnd => Sys2Proof.Machine.execOutDir opnd s
  | .outInd opnd => Sys2Proof.Machine.execOutInd opnd s
  | .jumpDir opnd => Sys2Proof.Machine.execJumpDir opnd s
  | .brnDir opnd => Sys2Proof.Machine.execBrnDir opnd s
  | .brzDir opnd => Sys2Proof.Machine.execBrzDir opnd s

end Sys2Proof.Machine
end

