-- ==== Sys2Proof/Machine/RunLoop.lean ====
section
/-!
DEFINITION. The run loop (44_runloop R170 to R184): the run-window test, the
fixed order of one cycle, the engine step, and the three places where a cycle
waits on the host. One step performs a cycle as far as the answers the host has
sent allow; where one is missing, PH says so and a later step goes on from there
(R181, R182). DEDUCED (safe): R181 says the atomic reading and the phase reading
are equivalent (log entry 7).
-/

namespace Sys2Proof.Machine

/-- The engine step (R172 step 6, R173): fetch, decode, execute. PH is IDLE unless
the instruction is an IN that waits (R182). -/
def engineStep (opc : OpcodeMap) (s : State) : Host.Outcome State Fault Refusal :=
  match decodeWith opc [fetchOpc s, fetchOpnd s] with
  | .ok (i, _) => exec i (s.setPh .idle)
  | .error _ => .next (unrecognizedStep (fetchOpc s) (s.setPh .idle))

/-- The stepper waits for its line (R172 step 5, R209): exactly one line is
consumed, its command applied, and the cycle goes on. -/
def awaitLine (opc : OpcodeMap) (s : State) : Host.Outcome State Fault Refusal :=
  match s.lines with
  | [] => .next s
  | l :: rest => engineStep opc (applyCommand (classifyLine l) (s.setLines rest))

/-- Steps 3 to 6 of R172: journal-write, console-trace, stepper-wait, engine. -/
def afterBreakpoint (opc : OpcodeMap) (s : State) : Host.Outcome State Fault Refusal :=
  let s1 := consoleTrace opc (journalWrite opc s)
  if s1.stepping then awaitLine opc (enterStepWait s1) else engineStep opc s1

/-- The breakpoint waits for its resume event (R202): exactly one is consumed. -/
def awaitResume (opc : OpcodeMap) (s : State) : Host.Outcome State Fault Refusal :=
  match s.resumes with
  | 0 => .next s
  | n + 1 => afterBreakpoint opc (s.setResumes n)

/-- One iteration whose window test has passed (R172, R183): the cycle counter, the
breakpoint-check, then the rest. -/
def beginCycle (opc : OpcodeMap) (s : State) : Host.Outcome State Fault Refusal :=
  if breakpointFires s.tick then awaitResume opc (enterBpWait s.tick)
  else afterBreakpoint opc s.tick

/-- A cycle that waits goes on from where it stood (R181, R182). With a PC outside
the memory, which no run reaches there, it "fails loudly rather than wrapping" (U7). -/
def ifFetchable (s : State) (o : Host.Outcome State Fault Refusal) :
    Host.Outcome State Fault Refusal :=
  if fetchable s.pc then o else .fault .addressOutOfRange

/-- One step of the machine with opcode map `opc`. After a run has ended nothing
changes (R39, R175); an aborted run is a fault (R242, U4). -/
def stepWith (opc : OpcodeMap) (s : State) : Host.Outcome State Fault Refusal :=
  match s.rs with
  | .fatalInput => .fault .inputMalformed
  | .haltOut | .stopRange => .next s
  | .run =>
    match s.ph with
    | .load => .next (loadStep s)
    | .idle => if inWindow s.pc then beginCycle opc s else .next (s.halt .stopRange)
    | .bpWait => ifFetchable s (awaitResume opc s)
    | .stepWait => ifFetchable s (awaitLine opc s)
    | .inWait => ifFetchable s (engineStep opc s)

end Sys2Proof.Machine
end

