-- ==== Sys2Proof/Machine/Step.lean ====
section
/-!
DEFINITION. The step of the machine with the default opcode table, and the state
in which the next step runs a given instruction. Both only call operations that
stand elsewhere.
-/

namespace Sys2Proof.Machine

/-- One step: one run-loop iteration or the part of it up to a wait (R172, R181),
or one move of the load phase (R271). -/
def step (s : State) : Host.Outcome State Fault Refusal := stepWith Config.opc s

/-- The state with the instruction of a table word where the next step fetches it.
The load phase is over in it, as after the loader wrote the two bytes and `run`
(log entry 11). -/
def State.withFetchWord (s : State) (nbits w : Nat) : State :=
  s.place (tableWordBytes nbits w).1 (tableWordBytes nbits w).2

end Sys2Proof.Machine
end

