-- ==== Sys2Proof/Safety.lean ====
section
/-!
DEFINITION. The terms claims are stated in: how a run has ended (44_runloop R178),
the invariant of the machine, what an instruction leaves unchanged (its frame), and
the datapath as the debug controller cannot touch it (45_debug R216).
-/

namespace Sys2Proof.Machine

/-! ### Runs -/

/-- The machine with any opcode map, for runs of many steps (R85). -/
def coreWith (opc : OpcodeMap) : Host.Core :=
  { State := State
    Fault := Fault
    Refusal := Refusal
    step := stepWith opc
    reset := State.reset }

/-- `n` steps with the opcode map `opc`. -/
def runWith (opc : OpcodeMap) (n : Nat) (s : State) : Host.Outcome State Fault Refusal :=
  (coreWith opc).run n s

/-- The two normal ends of a run (R178): a postcondition may be asked of these
states only. -/
def State.ended (s : State) : Prop := s.rs = .haltOut ∨ s.rs = .stopRange

/-- The abort (R178, R242): "a run that reaches it is not a successful run". -/
def State.aborted (s : State) : Prop := s.rs = .fatalInput

/-- A step that is safe to take: it answers a next state and the run is not aborted
in it. -/
def SafeStep (opc : OpcodeMap) (s : State) : Prop :=
  ∃ t, stepWith opc s = .next t ∧ ¬ t.aborted

/-- The livelock of R155: the byte at the PC is no opcode, and the PC is in the run
window of a running machine between two cycles. -/
def State.livelocked (opc : OpcodeMap) (s : State) : Prop :=
  s.rs = .run ∧ s.ph = .idle ∧ inWindow s.pc = true ∧ decodeByte opc (fetchOpc s) = none

/-- The host's answers the next cycle needs are there (R181): a resume event if the
breakpoint fires, a line if the stepper is on. -/
def State.answered (s : State) : Prop :=
  (breakpointFires s = true → 0 < s.resumes) ∧ (s.stepping = true → s.lines ≠ [])

/-- The debug hooks have nothing to do in the next cycle (R172: "Each step is skipped
when its flag is off"). -/
def State.quiet (s : State) : Prop :=
  breakpointFires s = false ∧ s.journalEnabled = false ∧ s.verboseTrace = false ∧
    s.stepping = false

/-! ### The invariant -/

/-- An OUT event. -/
def Event.isOut : Event → Bool
  | .out _ => true
  | .dump _ _ | .bpHit _ _ _ | .journal _ | .trace _ | .prompt _ _ | .narr _ _ _ _ _
  | .illegal _ _ | .fatalInputMalformed => false

/-- A FATAL event. -/
def Event.isFatal : Event → Bool
  | .fatalInputMalformed => true
  | .dump _ _ | .bpHit _ _ _ | .journal _ | .trace _ | .prompt _ _ | .out _
  | .narr _ _ _ _ _ | .illegal _ _ => false

/-- What every step keeps, from any state that has it. -/
structure State.Inv (opc : OpcodeMap) (s : State) : Prop where
  /-- Memory is in its canonical form, with addresses in 0x00 to 0xFF (R50). -/
  memWf : s.mem.wf = true
  /-- "the PC is always in 0x000 to 0x100" (R23). -/
  pcBound : s.pc.toNat ≤ 0x100
  /-- A phase other than IDLE belongs to a running machine (R182). -/
  phaseRuns : s.ph ≠ .idle → s.rs = .run
  /-- A cycle that waits began inside the run window (R171, R182). -/
  waitsInWindow : s.ph = .bpWait ∨ s.ph = .stepWait ∨ s.ph = .inWait →
    inWindow s.pc = true
  /-- BP_WAIT only where the breakpoint fires (R182). -/
  bpWaitFires : s.ph = .bpWait → breakpointFires s = true
  /-- STEP_WAIT only with the stepper on (R182). -/
  stepWaitStepping : s.ph = .stepWait → s.stepping = true
  /-- IN_WAIT only on an IN instruction (R182). -/
  inWaitIn : s.ph = .inWait →
    ∃ m, decodeByte opc (fetchOpc s) = some m ∧ m.family = .input
  /-- A RAM-dump pause only in the load phase, with the dump and the stepper on (R220). -/
  dumpPauseLoads : s.dumpPause = true →
    s.ph = .load ∧ s.dumpOnLoad = true ∧ s.stepping = true
  /-- "No cycle runs and `CYC` stays 0 during the load" (R271), and A is 0 (R38). -/
  loadFresh : s.ph = .load → s.cyc = 0 ∧ s.a = 0
  /-- A run that stopped on its range has its PC outside the window (R171). -/
  stopRangeOutside : s.rs = .stopRange → inWindow s.pc = false
  /-- "At most one `OUT` event occurs in a run", and it has halted (R135). -/
  oneOut : s.events.countP Event.isOut = if s.rs = .haltOut then 1 else 0
  /-- One FATAL event, and the run is aborted (R134). -/
  oneFatal : s.events.countP Event.isFatal = if s.rs = .fatalInput then 1 else 0

/-! ### Frames -/

/-- Every byte of memory reads as before. -/
def SameMemory (s t : State) : Prop := ∀ addr, memRead addr t = memRead addr s

/-- Every byte of memory but one reads as before. -/
def SameMemoryBut (cell : Byte) (s t : State) : Prop :=
  ∀ addr, addr ≠ cell → memRead addr t = memRead addr s

/-- The sequencer's registers are unchanged: CYC, RS, PH. -/
def SameSequencer (s t : State) : Prop := t.cyc = s.cyc ∧ t.rs = s.rs ∧ t.ph = s.ph

/-- The debug configuration is unchanged (R28). -/
def SameDebug (s t : State) : Prop :=
  t.stepping = s.stepping ∧ t.verboseTrace = s.verboseTrace ∧
    t.journalEnabled = s.journalEnabled ∧ t.breakpointArmed = s.breakpointArmed ∧
    t.breakpointAddress = s.breakpointAddress ∧ t.dumpOnLoad = s.dumpOnLoad ∧
    t.dumpPause = s.dumpPause

/-- The host's queues other than the IN items are unchanged. -/
def SameOtherQueues (s t : State) : Prop :=
  t.resumes = s.resumes ∧ t.lines = s.lines ∧ t.loads = s.loads

/-- Nothing changes but A, PC and the event list: the frame of ADD, SUB, NAND, LOAD,
JUMP, BRN and BRZ. -/
def SameButAPc (s t : State) : Prop :=
  SameMemory s t ∧ SameSequencer s t ∧ SameDebug s t ∧ SameOtherQueues s t ∧
    t.inItems = s.inItems

/-- `OPC(m)` then `opnd` are the bytes of the instruction `i`, whatever OPC is (R80,
R85). -/
def EncodedAs (i : Instr) (m : Mnemonic) (opnd : Byte) : Prop :=
  ∀ opc : OpcodeMap, opc.wellFormed = true → decodeWith opc [opc m, opnd] = .ok (i, [])

/-- The instruction answers a next state of which `P` holds. -/
def Completes (i : Instr) (s : State) (P : State → Prop) : Prop :=
  ∃ t, exec i s = .next t ∧ P t

/-- Everything an accumulator instruction does beside the value it writes to A:
`PC <- PC + 2`, one narration after the write, and nothing else (R100, R120). -/
def AccEffect (m : Mnemonic) (opnd : Byte) (s t : State) : Prop :=
  t.pc = s.pc + 2 ∧ t.events = s.events ++ [.narr s.pc m opnd t.a none] ∧ SameButAPc s t

/-- Everything an instruction does that stores `v` at `cell` (R51, R120): that byte,
`PC <- PC + 2`, one narration with the cell written. -/
def StoreEffect (m : Mnemonic) (opnd cell v : Byte) (s t : State) : Prop :=
  memRead cell t = v ∧ SameMemoryBut cell s t ∧ t.a = s.a ∧ t.pc = s.pc + 2 ∧
    t.events = s.events ++ [.narr s.pc m opnd s.a (some (cell, v))] ∧
    t.cyc = s.cyc ∧ t.rs = s.rs ∧ SameDebug s t ∧ SameOtherQueues s t

/-- Everything an OUT does that emits `v` (R136, R140), the PC aside: `OUT(v)`, the
narration, the halt. -/
def OutEffect (m : Mnemonic) (opnd v : Byte) (s t : State) : Prop :=
  t.events = s.events ++ [.out v, .narr s.pc m opnd s.a none] ∧ t.rs = .haltOut ∧
    t.a = s.a ∧ SameMemory s t ∧ t.cyc = s.cyc ∧ t.ph = s.ph ∧ SameDebug s t ∧
    SameOtherQueues s t ∧ t.inItems = s.inItems

/-- Everything a control transfer does that makes `pc` the new PC (R153). -/
def TransferEffect (m : Mnemonic) (opnd : Byte) (pc : PcWord) (s t : State) : Prop :=
  t.pc = pc ∧ t.a = s.a ∧ t.events = s.events ++ [.narr s.pc m opnd s.a none] ∧
    SameButAPc s t

/-! ### The datapath -/

/-- The events the datapath emits (R216). -/
def Event.isDatapath : Event → Bool
  | .out _ | .narr _ _ _ _ _ | .illegal _ _ | .fatalInputMalformed => true
  | .dump _ _ | .bpHit _ _ _ | .journal _ | .trace _ | .prompt _ _ => false

/-- The datapath's events of a run, in order. -/
def datapathEvents (s : State) : List Event := s.events.filter Event.isDatapath

/-- Two states with the same datapath, whatever their debug configuration, their
resume events and their stepper lines (R216). -/
structure DatapathAgree (s t : State) : Prop where
  a : t.a = s.a
  pc : t.pc = s.pc
  mem : t.mem = s.mem
  cyc : t.cyc = s.cyc
  rs : t.rs = s.rs
  ph : t.ph = s.ph
  inItems : t.inItems = s.inItems
  events : datapathEvents t = datapathEvents s

/-- Two outcomes with the same datapath. -/
def OutcomesAgree :
    Host.Outcome State Fault Refusal → Host.Outcome State Fault Refusal → Prop
  | .next s, .next t => DatapathAgree s t
  | .fault f, .fault g => f = g
  | .refused r, .refused q => r = q
  | _, _ => False

end Sys2Proof.Machine
end

