-- ==== Sys2Proof/Certificates/Slice0/Obligations.lean ====
section
/-!
DEFINITION. The statements for the provers. Each docstring names the rule of spec/
it formalises. Statements about the step hold for every opcode map OPC, or for
every well-formed one where the map's injectivity matters (R85).
-/

open Sys2Proof Sys2Proof.Machine

/-! ### Encoding -/

/-- R80, R83: with any injective OPC, decoding the two bytes of an instruction gives it
back with its operand, and leaves the bytes after it. -/
def Obligations.DecodeOfEncodeIsIdentity : Prop :=
  ∀ (opc : OpcodeMap), opc.wellFormed = true →
    ∀ (i : Instr) (rest : List Byte), i.wellFormed = true →
      decodeWith opc (encodeWith opc i ++ rest) = .ok (i, rest)

/-- R83: bytes that decode are the encoding of what they decode to, so each word has one
meaning. -/
def Obligations.DecodedBytesAreTheEncoding : Prop :=
  ∀ (opc : OpcodeMap) (bytes : List Byte) (i : Instr) (rest : List Byte),
    decodeWith opc bytes = .ok (i, rest) → bytes = encodeWith opc i ++ rest

/-- R83: `Decode(b)` is the instruction whose opcode byte is `b`, and UNRECOGNIZED exactly
if no instruction has it. -/
def Obligations.DecodeByteMatchesTheTable : Prop :=
  ∀ (opc : OpcodeMap), opc.wellFormed = true → ∀ b : Byte,
    (∀ m : Mnemonic, decodeByte opc b = some m ↔ opc m = b) ∧
      (decodeByte opc b = none ↔ ∀ m : Mnemonic, opc m ≠ b)

/-- R87: with any injective OPC, 256 - 22 = 234 byte values are unrecognized. -/
def Obligations.UnrecognizedBytesAre234 : Prop :=
  ∀ (opc : OpcodeMap), opc.wellFormed = true →
    ((List.range 256).filter
      (fun n => decodeByte opc (BitVec.ofNat 8 n) == none)).length = 234

/-- A few words written out from the default table of R85 (log entry 1: the numbers are the
spec's default, from general knowledge), and one byte that is no opcode. -/
def Obligations.DefaultTableWordsDecode : Prop :=
  decode [0x20, 0x05] = .ok (.addImm 0x05, []) ∧
  decode [0xE1, 0x50] = .ok (.subInd 0x50, []) ∧
  decode [0x62, 0x80] = .ok (.nandDir 0x80, []) ∧
  decode [0x00, 0x07] = .ok (.loadImm 0x07, []) ∧
  decode [0xC8, 0x50] = .ok (.storeInd 0x50, []) ∧
  decode [0x49, 0x80] = .ok (.inDir 0x80, []) ∧
  decode [0xC1, 0x82] = .ok (.outInd 0x82, []) ∧
  decode [0x10, 0x22] = .ok (.jumpDir 0x22, []) ∧
  decode [0x11, 0x28] = .ok (.brnDir 0x28, []) ∧
  decode [0x12, 0x28] = .ok (.brzDir 0x28, []) ∧
  decode [0x08, 0x00] = .error (.unrecognized 0x08)

/-! ### Reset and load -/

/-- R270 with R38: what reset leaves, whatever state it is applied to and whatever START,
DBG0 and MEM0 are. -/
def Obligations.ResetGivesTheRunStartState : Prop :=
  ∀ (s : State) (p : RunParams), hostSend (.reset p) s = State.resetWith p ∧
    (State.resetWith p).a = 0 ∧ (State.resetWith p).pc.toNat = p.start.toNat ∧
    (State.resetWith p).cyc = 0 ∧ (State.resetWith p).rs = .run ∧
    (State.resetWith p).ph = .load ∧
    (State.resetWith p).stepping = p.dbg.stepEnabled ∧
    (State.resetWith p).verboseTrace = p.dbg.verboseTrace ∧
    (State.resetWith p).journalEnabled = p.dbg.journalEnabled ∧
    (State.resetWith p).breakpointArmed = p.dbg.breakpointArmed ∧
    (State.resetWith p).breakpointAddress = p.dbg.breakpointAddress ∧
    (State.resetWith p).dumpOnLoad = p.dbg.dumpOnLoad ∧
    ∀ addr, memRead addr (State.resetWith p) = p.mem0.read addr

/-- R271, R220: a program that fits is loaded token by token: token k goes to
`M[START + k]`, every other cell keeps its MEM0 byte, no cycle runs, `CYC` stays 0, and
with the RAM dump on each loaded cell is reported in load order. The premise on DBG0
leaves out the dump pauses only, which wait for the host. -/
def Obligations.LoaderPlacesTokensFromStart : Prop :=
  ∀ (opc : OpcodeMap) (p : RunParams) (tokens : List Byte) (moves : List LoadMove),
    loaderScript p.start tokens = some moves →
    (p.dbg.dumpOnLoad = true → p.dbg.stepEnabled = false) →
    ∃ t, runWith opc (tokens.length + 1) ((State.resetWith p).setLoads moves) = .next t ∧
      (∀ k (h : k < tokens.length),
        memRead (BitVec.ofNat 8 (p.start.toNat + k)) t = tokens[k]) ∧
      (∀ addr : Byte, addr.toNat < p.start.toNat ∨
          p.start.toNat + tokens.length ≤ addr.toNat →
        memRead addr t = p.mem0.read addr) ∧
      t.a = 0 ∧ t.pc.toNat = p.start.toNat ∧ t.cyc = 0 ∧ t.rs = .run ∧ t.ph = .idle ∧
      SameDebug (State.resetWith p) t ∧
      t.events = if p.dbg.dumpOnLoad then
          (List.range tokens.length).map (fun k =>
            .dump (BitVec.ofNat 8 (p.start.toNat + k)) (tokens.getD k 0))
        else []

/-- R220: after a dumped cell with the stepper on, the load phase pauses; it goes on with
the host's next line, whose command is applied as at run time. The pause bit and the
absence of a PROMPT are the model's choice (log entry 8). -/
def Obligations.RamDumpPausesForOneLine : Prop :=
  ∀ (opc : OpcodeMap) (s : State) (addr v : Byte) (rest : List LoadMove),
    s.rs = .run → s.ph = .load → s.dumpPause = false → s.dumpOnLoad = true →
    s.stepping = true → s.loads = .write addr v :: rest →
    ∃ t, stepWith opc s = .next t ∧ t.dumpPause = true ∧ memRead addr t = v ∧
      SameMemoryBut addr s t ∧ t.events = s.events ++ [.dump addr v] ∧ t.loads = rest ∧
      (s.lines = [] → stepWith opc t = .next t) ∧
      (∀ l ls, s.lines = l :: ls →
        stepWith opc t =
          .next (((applyCommand (classifyLine l) (t.setLines ls))).setDumpPause false))

/-- R177: a START outside the run window gives a run of no cycle. -/
def Obligations.StartOutsideWindowRunsNoCycle : Prop :=
  ∀ (opc : OpcodeMap) (p : RunParams),
    p.start.toNat ≤ 0x1F ∨ p.start.toNat = 0xFF →
    ∃ t, runWith opc 2 ((State.resetWith p).setLoads [.run]) = .next t ∧
      t.rs = .stopRange ∧ t.cyc = 0 ∧ t.a = 0 ∧ t.pc.toNat = p.start.toNat ∧
      t.events = [] ∧ ∀ addr, memRead addr t = p.mem0.read addr

/-! ### The instructions -/

/-- R110: the arithmetic wraps modulo 256, in the unsigned and in the two's-complement
reading, and NAND is bitwise. -/
def Obligations.ArithmeticWrapsModulo256 : Prop :=
  ∀ a v : Byte,
    (aluAdd a v).toNat = (a.toNat + v.toNat) % 256 ∧
    (aluAdd a v).toInt = (a.toInt + v.toInt).bmod 256 ∧
    (aluSub a v).toNat = (a.toNat + 256 - v.toNat) % 256 ∧
    (aluSub a v).toInt = (a.toInt - v.toInt).bmod 256 ∧
    aluSub a v = aluAdd (aluAdd a (~~~v)) 1 ∧
    ∀ k, k < 8 → (aluNand a v).getLsbD k = !(a.getLsbD k && v.getLsbD k)

/-- R101, R102, R103: ADD in its three modes. -/
def Obligations.AddAddsItsValueToA : Prop :=
  ∀ (opnd : Byte) (s : State),
    EncodedAs (.addImm opnd) .addImm opnd ∧ EncodedAs (.addDir opnd) .addDir opnd ∧
    EncodedAs (.addInd opnd) .addInd opnd ∧
    Completes (.addImm opnd) s (fun t =>
      t.a.toNat = (s.a.toNat + opnd.toNat) % 256 ∧ AccEffect .addImm opnd s t) ∧
    Completes (.addDir opnd) s (fun t =>
      t.a.toNat = (s.a.toNat + (memRead opnd s).toNat) % 256 ∧
        AccEffect .addDir opnd s t) ∧
    Completes (.addInd opnd) s (fun t =>
      t.a.toNat = (s.a.toNat + (memRead (memRead opnd s) s).toNat) % 256 ∧
        AccEffect .addInd opnd s t)

/-- R104, R105, R106: SUB in its three modes. -/
def Obligations.SubSubtractsItsValueFromA : Prop :=
  ∀ (opnd : Byte) (s : State),
    EncodedAs (.subImm opnd) .subImm opnd ∧ EncodedAs (.subDir opnd) .subDir opnd ∧
    EncodedAs (.subInd opnd) .subInd opnd ∧
    Completes (.subImm opnd) s (fun t =>
      t.a.toNat = (s.a.toNat + 256 - opnd.toNat) % 256 ∧ AccEffect .subImm opnd s t) ∧
    Completes (.subDir opnd) s (fun t =>
      t.a.toNat = (s.a.toNat + 256 - (memRead opnd s).toNat) % 256 ∧
        AccEffect .subDir opnd s t) ∧
    Completes (.subInd opnd) s (fun t =>
      t.a.toNat = (s.a.toNat + 256 - (memRead (memRead opnd s) s).toNat) % 256 ∧
        AccEffect .subInd opnd s t)

/-- R107, R108, R109: NAND in its three modes, bit by bit. -/
def Obligations.NandComplementsTheConjunction : Prop :=
  ∀ (opnd : Byte) (s : State),
    EncodedAs (.nandImm opnd) .nandImm opnd ∧ EncodedAs (.nandDir opnd) .nandDir opnd ∧
    EncodedAs (.nandInd opnd) .nandInd opnd ∧
    Completes (.nandImm opnd) s (fun t =>
      (∀ k, k < 8 → t.a.getLsbD k = !(s.a.getLsbD k && opnd.getLsbD k)) ∧
        AccEffect .nandImm opnd s t) ∧
    Completes (.nandDir opnd) s (fun t =>
      (∀ k, k < 8 → t.a.getLsbD k = !(s.a.getLsbD k && (memRead opnd s).getLsbD k)) ∧
        AccEffect .nandDir opnd s t) ∧
    Completes (.nandInd opnd) s (fun t =>
      (∀ k, k < 8 →
        t.a.getLsbD k = !(s.a.getLsbD k && (memRead (memRead opnd s) s).getLsbD k)) ∧
        AccEffect .nandInd opnd s t)

/-- R121, R122, R123: LOAD in its three modes. -/
def Obligations.LoadCopiesItsValueIntoA : Prop :=
  ∀ (opnd : Byte) (s : State),
    EncodedAs (.loadImm opnd) .loadImm opnd ∧ EncodedAs (.loadDir opnd) .loadDir opnd ∧
    EncodedAs (.loadInd opnd) .loadInd opnd ∧
    Completes (.loadImm opnd) s (fun t => t.a = opnd ∧ AccEffect .loadImm opnd s t) ∧
    Completes (.loadDir opnd) s (fun t =>
      t.a = memRead opnd s ∧ AccEffect .loadDir opnd s t) ∧
    Completes (.loadInd opnd) s (fun t =>
      t.a = memRead (memRead opnd s) s ∧ AccEffect .loadInd opnd s t)

/-- R124, R125: STORE in its two modes. The pointer is read before the write. -/
def Obligations.StoreWritesOneCell : Prop :=
  ∀ (opnd : Byte) (s : State),
    EncodedAs (.storeDir opnd) .storeDir opnd ∧ EncodedAs (.storeInd opnd) .storeInd opnd ∧
    Completes (.storeDir opnd) s (fun t =>
      StoreEffect .storeDir opnd opnd s.a s t ∧ t.ph = s.ph ∧ t.inItems = s.inItems) ∧
    Completes (.storeInd opnd) s (fun t =>
      StoreEffect .storeInd opnd (memRead opnd s) s.a s t ∧ t.ph = s.ph ∧
        t.inItems = s.inItems)

/-- R132, R133: IN with a byte at the head of the input stream stores it at the target,
consumes exactly that item and leaves A; the cycle is over (R182). -/
def Obligations.InStoresTheInputByte : Prop :=
  ∀ (opnd b : Byte) (rest : List InputItem) (s : State), s.inItems = .byte b :: rest →
    EncodedAs (.inDir opnd) .inDir opnd ∧ EncodedAs (.inInd opnd) .inInd opnd ∧
    Completes (.inDir opnd) s (fun t =>
      StoreEffect .inDir opnd opnd b s t ∧ t.ph = .idle ∧ t.inItems = rest) ∧
    Completes (.inInd opnd) s (fun t =>
      StoreEffect .inInd opnd (memRead opnd s) b s t ∧ t.ph = .idle ∧ t.inItems = rest)

/-- R134: IN with a malformed item aborts the run: the FATAL event, RS, the consumed item,
and nothing else; no narration. The machine does not go on (log entry 12). -/
def Obligations.MalformedInputAborts : Prop :=
  ∀ (opc : OpcodeMap) (opnd : Byte) (rest : List InputItem) (s : State) (i : Instr),
    s.inItems = .malformed :: rest → i = .inDir opnd ∨ i = .inInd opnd →
    Completes i s (fun t =>
      t.events = s.events ++ [.fatalInputMalformed] ∧ t.rs = .fatalInput ∧
      SameMemory s t ∧ t.pc = s.pc ∧ t.a = s.a ∧ t.cyc = s.cyc ∧ t.ph = .idle ∧
      SameDebug s t ∧ SameOtherQueues s t ∧ t.inItems = rest ∧
      ∀ n, runWith opc (n + 1) t = .fault .inputMalformed)

/-- R131: IN with no item waits in phase IN_WAIT; no other state changes and no event is
emitted. -/
def Obligations.InWithoutItemWaits : Prop :=
  ∀ (opnd : Byte) (s : State) (i : Instr), s.inItems = [] →
    i = .inDir opnd ∨ i = .inInd opnd →
    Completes i s (fun t =>
      t.ph = .inWait ∧ t.events = s.events ∧ SameMemory s t ∧ t.a = s.a ∧ t.pc = s.pc ∧
      t.cyc = s.cyc ∧ t.rs = s.rs ∧ SameDebug s t ∧ SameOtherQueues s t ∧ t.inItems = [])

/-- R137, R138, R139: OUT emits its value, narrates and halts; OUT# and OUT@ leave the PC at
the OUT, OUT*@ advances it by 2. -/
def Obligations.OutEmitsAndHalts : Prop :=
  ∀ (opnd : Byte) (s : State),
    EncodedAs (.outImm opnd) .outImm opnd ∧ EncodedAs (.outDir opnd) .outDir opnd ∧
    EncodedAs (.outInd opnd) .outInd opnd ∧
    Completes (.outImm opnd) s (fun t => OutEffect .outImm opnd opnd s t ∧ t.pc = s.pc) ∧
    Completes (.outDir opnd) s (fun t =>
      OutEffect .outDir opnd (memRead opnd s) s t ∧ t.pc = s.pc) ∧
    Completes (.outInd opnd) s (fun t =>
      OutEffect .outInd opnd (memRead (memRead opnd s) s) s t ∧ t.pc = s.pc + 2)

/-- R150, R151, R152: the control transfers. BRN tests bit 7 of A, which is the sign of its
two's-complement reading; BRZ tests all 8 bits. -/
def Obligations.TransfersReplaceThePc : Prop :=
  ∀ (opnd : Byte) (s : State),
    EncodedAs (.jumpDir opnd) .jumpDir opnd ∧ EncodedAs (.brnDir opnd) .brnDir opnd ∧
    EncodedAs (.brzDir opnd) .brzDir opnd ∧
    Completes (.jumpDir opnd) s (TransferEffect .jumpDir opnd (opnd.setWidth 9) s) ∧
    Completes (.brnDir opnd) s (TransferEffect .brnDir opnd
      (if s.a.getLsbD 7 then opnd.setWidth 9 else s.pc + 2) s) ∧
    Completes (.brnDir opnd) s (TransferEffect .brnDir opnd
      (if s.a.toInt < 0 then opnd.setWidth 9 else s.pc + 2) s) ∧
    Completes (.brzDir opnd) s (TransferEffect .brzDir opnd
      (if s.a.toNat = 0 then opnd.setWidth 9 else s.pc + 2) s)

/-! ### The whole machine, instruction by instruction -/

/-- R21: A is written by the instructions of the ADD, SUB, NAND and LOAD families and by
nothing else, in a step of the machine as in an instruction. -/
def Obligations.OnlyTwelveInstructionsWriteA : Prop :=
  ∀ (opc : OpcodeMap) (s t : State), stepWith opc s = .next t → t.a ≠ s.a →
    ∃ m, decodeByte opc (fetchOpc s) = some m ∧
      (m.family = .add ∨ m.family = .sub ∨ m.family = .nand ∨ m.family = .load)

/-- R66: outside the load phase, memory is written by STORE and by IN and by nothing else,
one cell a step: the target (R57) of the operand fetched at the PC, a pointer being read
before the write. The hooks leave the PC and memory alone, so the state the step begins in
is where the target is computed. -/
def Obligations.OnlyStoreInAndLoaderWriteMemory : Prop :=
  ∀ (opc : OpcodeMap) (s t : State), stepWith opc s = .next t → s.ph ≠ .load →
    SameMemory s t ∨
    ((decodeByte opc (fetchOpc s) = some .storeDir ∨
        decodeByte opc (fetchOpc s) = some .inDir) ∧
      SameMemoryBut (target .dir (fetchOpnd s) s) s t) ∨
    ((decodeByte opc (fetchOpc s) = some .storeInd ∨
        decodeByte opc (fetchOpc s) = some .inInd) ∧
      SameMemoryBut (target .ind (fetchOpnd s) s) s t)

/-- R175, R178, R240: a run ends in three ways and no other. -/
def Obligations.RunEndsInThreeWaysOnly : Prop :=
  ∀ (opc : OpcodeMap) (s t : State), stepWith opc s = .next t → t.rs ≠ s.rs →
    (t.rs = .stopRange ∧ (s.pc.toNat ≤ 0x1F ∨ 0xFF ≤ s.pc.toNat) ∧
        t = { s with rs := .stopRange }) ∨
    (t.rs = .haltOut ∧ ∃ m v pre, decodeByte opc (fetchOpc s) = some m ∧
        m.family = .output ∧
        t.events = pre ++ [.out v, .narr s.pc m (fetchOpnd s) s.a none]) ∨
    (t.rs = .fatalInput ∧ ∃ m, decodeByte opc (fetchOpc s) = some m ∧
        m.family = .input ∧ s.inItems.head? = some .malformed)

/-- R27: `CYC` counts the iterations of the run loop, each exactly once, however long it
waits, and nothing else changes it. -/
def Obligations.CycCountsIterations : Prop :=
  ∀ (opc : OpcodeMap) (s t : State), stepWith opc s = .next t →
    t.cyc = if s.rs = .run ∧ s.ph = .idle ∧ inWindow s.pc = true then s.cyc + 1 else s.cyc

/-- R180: events are only ever appended. -/
def Obligations.EventsAreOnlyAppended : Prop :=
  ∀ (opc : OpcodeMap) (s t : State), stepWith opc s = .next t →
    ∃ new, t.events = s.events ++ new

/-- R32, R33, R34: the journal flag, the breakpoint and the dump flag never change during a
run. -/
def Obligations.FixedConfigurationNeverChanges : Prop :=
  ∀ (opc : OpcodeMap) (n : Nat) (s t : State), runWith opc n s = .next t →
    t.journalEnabled = s.journalEnabled ∧ t.breakpointArmed = s.breakpointArmed ∧
      t.breakpointAddress = s.breakpointAddress ∧ t.dumpOnLoad = s.dumpOnLoad

/-- R213: with the stepper off both flags are frozen for the rest of the run, and no step
ever turns the stepper on. The invariant rules out a machine that waits at the stepper
with the stepper off. -/
def Obligations.StepperOffFreezesTheFlags : Prop :=
  ∀ (opc : OpcodeMap) (n : Nat) (s t : State), runWith opc n s = .next t →
    (s.Inv opc → s.stepping = false →
      t.stepping = false ∧ t.verboseTrace = s.verboseTrace) ∧
    (t.stepping = true → s.stepping = true)

/-- R181, R6: a cycle that waits has changed no architectural state, A, PC, memory and RS
being as they were; and while the host does not answer, nothing at all changes. -/
def Obligations.WaitingChangesNoArchitecturalState : Prop :=
  ∀ (opc : OpcodeMap) (s t : State), stepWith opc s = .next t →
    t.ph = .bpWait ∨ t.ph = .stepWait ∨ t.ph = .inWait →
    t.a = s.a ∧ t.pc = s.pc ∧ t.mem = s.mem ∧ t.rs = s.rs ∧ stepWith opc t = .next t

/-- R180, R245: the datapath's part of one step is one of these and never two: nothing (a
wait, the load phase, the end of a run), a narration, an OUT with its narration and the
halt, the diagnostic of an unrecognized byte, or the fatal input error. -/
def Obligations.OneDatapathOutcomePerStep : Prop :=
  ∀ (opc : OpcodeMap) (s t : State), stepWith opc s = .next t →
    ∃ new, datapathEvents t = datapathEvents s ++ new ∧
      (new = [] ∨
        (∃ m w, decodeByte opc (fetchOpc s) = some m ∧
          new = [.narr s.pc m (fetchOpnd s) t.a w] ∧ t.rs = .run) ∨
        (∃ m v, decodeByte opc (fetchOpc s) = some m ∧ m.family = .output ∧
          new = [.out v, .narr s.pc m (fetchOpnd s) s.a none] ∧ t.rs = .haltOut) ∨
        (decodeByte opc (fetchOpc s) = none ∧ new = [.illegal s.pc (fetchOpc s)] ∧
          t.rs = .run ∧ t.pc = s.pc ∧ t.a = s.a ∧ t.mem = s.mem) ∨
        (∃ m, decodeByte opc (fetchOpc s) = some m ∧ m.family = .input ∧
          new = [.fatalInputMalformed] ∧ t.rs = .fatalInput ∧ t.pc = s.pc ∧ t.a = s.a ∧
          t.mem = s.mem))

/-! ### The run loop -/

/-- R173: with the debug hooks idle, a step of a running machine whose bytes at the PC decode
to an instruction is that instruction on the state with the cycle counted. -/
def Obligations.StepRunsTheDecodedInstruction : Prop :=
  ∀ (opc : OpcodeMap) (s : State) (i : Instr), s.rs = .run → s.ph = .idle →
    inWindow s.pc = true → s.quiet →
    decodeWith opc [memRead (s.pc.setWidth 8) s, memRead ((s.pc + 1).setWidth 8) s]
      = .ok (i, []) →
    stepWith opc s = exec i { s with cyc := s.cyc + 1 }

/-- R172, R183: the fixed order of one cycle, with the host's answers there: cycle counter,
breakpoint, journal, console trace, stepper, engine step. The record is taken before the
engine step and carries the cycle counted. -/
def Obligations.CycleFollowsTheHookOrder : Prop :=
  ∀ (opc : OpcodeMap) (s : State) (i : Instr), s.rs = .run → s.ph = .idle →
    inWindow s.pc = true → s.answered →
    decodeWith opc [fetchOpc s, fetchOpnd s] = .ok (i, []) →
    stepWith opc s = exec i
      (applyCommand (if s.stepping then classifyLine (s.lines.headD []) else .none)
        { s with
          cyc := s.cyc + 1
          resumes := if breakpointFires s then s.resumes - 1 else s.resumes
          lines := if s.stepping then s.lines.tail else s.lines
          events := s.events ++
            (if breakpointFires s then [.bpHit (s.cyc + 1) s.pc s.breakpointAddress]
              else []) ++
            (if s.journalEnabled then [.journal (record opc { s with cyc := s.cyc + 1 })]
              else []) ++
            (if s.verboseTrace then [.trace (record opc { s with cyc := s.cyc + 1 })]
              else []) ++
            (if s.stepping then [.prompt s.pc s.a] else []) })

/-- R206, R207, R208: the journal and the console trace of a cycle carry the identical
record, whose fields are the cycle ordinal already counted and the instruction about to
execute. -/
def Obligations.RecordDescribesTheInstructionToRun : Prop :=
  ∀ (opc : OpcodeMap) (s : State), inWindow s.pc = true →
    (record opc s).cyc = s.cyc ∧ (record opc s).pc = s.pc ∧ (record opc s).opcAddr = s.pc ∧
    (record opc s).opdAddr.toNat = s.pc.toNat + 1 ∧
    (record opc s).opcVal = memRead (BitVec.ofNat 8 s.pc.toNat) s ∧
    (record opc s).opdVal = memRead (BitVec.ofNat 8 (s.pc.toNat + 1)) s ∧
    (record opc s).acc = s.a ∧ (record opc s).operand = (record opc s).opdVal ∧
    (record opc s).mnemonic = decodeByte opc (record opc s).opcVal ∧
    (consoleTrace opc (journalWrite opc s)).events = s.events ++
      (if s.journalEnabled then [.journal (record opc s)] else []) ++
      (if s.verboseTrace then [.trace (record opc s)] else [])

/-- R171: a running machine between two cycles whose PC is at most 0x1F or at least 0xFF ends
its run there: no cycle, no event, the PC unchanged. -/
def Obligations.WindowTestEndsTheRun : Prop :=
  ∀ (opc : OpcodeMap) (s : State), s.rs = .run → s.ph = .idle →
    s.pc.toNat ≤ 0x1F ∨ 0xFF ≤ s.pc.toNat →
    stepWith opc s = .next { s with rs := .stopRange }

/-- R175, R39: once a run has ended normally no state changes, for ever. -/
def Obligations.EndedRunHoldsItsState : Prop :=
  ∀ (opc : OpcodeMap) (n : Nat) (s : State), s.ended → runWith opc n s = .next s

/-- R155: the livelock. On an unrecognized byte the machine never leaves its state, whatever
the host does or does not answer; and with the host answering, every step is a whole cycle
that counts, emits `ILLEGAL(pc, opc)`, and changes no PC, A or memory. -/
def Obligations.UnrecognizedOpcodeRunsForEver : Prop :=
  ∀ (opc : OpcodeMap) (n : Nat) (s : State), s.livelocked opc →
    (∃ t, runWith opc n s = .next t ∧ t.pc = s.pc ∧ t.a = s.a ∧ t.mem = s.mem ∧
      t.rs = .run) ∧
    (n ≤ s.resumes → n ≤ s.lines.length →
      ∃ t, runWith opc n s = .next t ∧ t.pc = s.pc ∧ t.a = s.a ∧ t.mem = s.mem ∧
        t.rs = .run ∧ t.ph = .idle ∧ t.cyc = s.cyc + n ∧ t.inItems = s.inItems ∧
        datapathEvents t =
          datapathEvents s ++ List.replicate n (.illegal s.pc (fetchOpc s)))

/-- R64: a store is seen by the next fetch: after STORE@ the cell holds A for the fetch of
the instruction that stands there, opcode and operand alike. -/
def Obligations.StoreIsSeenByTheNextFetch : Prop :=
  ∀ (opnd : Byte) (s t : State), exec (.storeDir opnd) s = .next t →
    (t.pc.setWidth 8 = opnd → fetchOpc t = s.a) ∧
      ((t.pc + 1).setWidth 8 = opnd → fetchOpnd t = s.a) ∧
      (t.pc.setWidth 8 ≠ opnd → fetchOpc t = memRead (t.pc.setWidth 8) s)

/-- R181, reading (a) and reading (b): a cycle that waits and is then answered goes on to the
state it would have reached had the answer been there from the start. -/
def Obligations.LateAnswerEqualsEarlyAnswer : Prop :=
  ∀ (opc : OpcodeMap) (s t : State), s.rs = .run → stepWith opc s = .next t →
    (t.ph = .bpWait →
      stepWith opc (hostSend .resume t) = stepWith opc (s.setResumes (s.resumes + 1))) ∧
    (t.ph = .stepWait → ∀ l,
      stepWith opc (hostSend (.line l) t) = stepWith opc (s.setLines (s.lines ++ [l]))) ∧
    (t.ph = .inWait → ∀ it,
      stepWith opc (hostSend (.item it) t) = stepWith opc (s.setInItems (s.inItems ++ [it])))

/-! ### The debug controller -/

/-- R201, R204: the comparator, for a PC in the run window: it fires for an instruction at the
target and for one whose operand is there, so never for a target below 0x20, and for 0xFF
only at 0xFE. -/
def Obligations.BreakpointFiresOnTheInstructionCells : Prop :=
  ∀ (pc : PcWord) (t : Byte), inWindow pc = true →
    (fires pc t = true ↔ pc.toNat = t.toNat ∨ pc.toNat + 1 = t.toNat) ∧
    (t.toNat < 0x20 → fires pc t = false) ∧
    (t = 0x20 → (fires pc t = true ↔ pc = 0x20)) ∧
    (t = 0xFF → (fires pc t = true ↔ pc = 0xFE))

/-- R202, R182: a breakpoint that fires with no resume event there counts the cycle, announces
itself and waits; the instruction has not run. -/
def Obligations.BreakpointPausesBeforeTheInstruction : Prop :=
  ∀ (opc : OpcodeMap) (s : State), s.rs = .run → s.ph = .idle → inWindow s.pc = true →
    breakpointFires s = true → s.resumes = 0 →
    stepWith opc s = .next { s with
      cyc := s.cyc + 1
      ph := .bpWait
      events := s.events ++ [.bpHit (s.cyc + 1) s.pc s.breakpointAddress] }

/-- R209, R212: with the stepper on and no line there, the cycle shows the PC and accumulator
of the instruction about to run and waits; the instruction has not run. -/
def Obligations.StepperPausesBeforeTheInstruction : Prop :=
  ∀ (opc : OpcodeMap) (s : State), s.rs = .run → s.ph = .idle → inWindow s.pc = true →
    breakpointFires s = false → s.stepping = true → s.lines = [] →
    ∃ t, stepWith opc s = .next t ∧ t.ph = .stepWait ∧ t.cyc = s.cyc + 1 ∧
      (∃ pre, t.events = s.events ++ pre ++ [.prompt s.pc s.a]) ∧ t.a = s.a ∧
      t.pc = s.pc ∧ t.mem = s.mem ∧ SameDebug s t ∧ SameOtherQueues s t ∧
      t.inItems = s.inItems ∧ stepWith opc t = .next t

/-- R210, R211: the three commands and no other line change a flag. Case is ignored and
nothing is stripped, so a line of another length is no command. That case is ASCII case is
the model's reading (log entry 9). -/
def Obligations.StepperCommandsChangeTwoFlags : Prop :=
  ∀ (l : Line) (s : State),
    (l.map lowerChar = wordStopStepper →
      applyCommand (classifyLine l) s = { s with stepping := false }) ∧
    (l.map lowerChar = wordPrint →
      applyCommand (classifyLine l) s = { s with verboseTrace := true }) ∧
    (l.map lowerChar = wordStopPrint →
      applyCommand (classifyLine l) s = { s with verboseTrace := false }) ∧
    (l.map lowerChar ∉ [wordStopStepper, wordPrint, wordStopPrint] →
      applyCommand (classifyLine l) s = s) ∧
    (l.length ≠ 12 → l.length ≠ 5 → l.length ≠ 10 → applyCommand (classifyLine l) s = s)

/-- R216: separability. For a fixed memory, input stream and OPC, runs of the same length
that begin with the same datapath keep the same datapath and the same OUT, NARR, ILLEGAL
and FATAL events, whatever the debug configuration and whatever the host types, provided
it answers every wait. -/
def Obligations.DebugControllerLeavesTheDatapathAlone : Prop :=
  ∀ (opc : OpcodeMap) (n : Nat) (s t : State), DatapathAgree s t →
    s.ph = .idle ∨ s.ph = .inWait →
    n ≤ s.resumes → n ≤ s.lines.length → n ≤ t.resumes → n ≤ t.lines.length →
    OutcomesAgree (runWith opc n s) (runWith opc n t)

/-! ### The host -/

/-- R10, R281: during a run the host never writes PC, A, M, the counter, the run state or a
flag. A move that is no reset and that the machine asks for joins the end of its own queue
and leaves the other queues as they are; one it does not ask for changes nothing. That a
queue holds the answers, and that an unasked move is dropped, is the model's choice (log
entry 5). -/
def Obligations.HostOnlyAnswersTheMachine : Prop :=
  ∀ (m : HostMove) (s : State), (∀ p, m ≠ .reset p) →
    (hostSend m s).a = s.a ∧ (hostSend m s).pc = s.pc ∧ (hostSend m s).mem = s.mem ∧
    SameSequencer s (hostSend m s) ∧ SameDebug s (hostSend m s) ∧
    (hostSend m s).events = s.events ∧ (asksFor s m = false → hostSend m s = s) ∧
    (asksFor s m = true →
      (∀ mv, m = .load mv →
        (hostSend m s).loads = s.loads ++ [mv] ∧ (hostSend m s).resumes = s.resumes ∧
          (hostSend m s).lines = s.lines ∧ (hostSend m s).inItems = s.inItems) ∧
      (m = .resume →
        (hostSend m s).resumes = s.resumes + 1 ∧ (hostSend m s).loads = s.loads ∧
          (hostSend m s).lines = s.lines ∧ (hostSend m s).inItems = s.inItems) ∧
      (∀ l, m = .line l →
        (hostSend m s).lines = s.lines ++ [l] ∧ (hostSend m s).loads = s.loads ∧
          (hostSend m s).resumes = s.resumes ∧ (hostSend m s).inItems = s.inItems) ∧
      (∀ it, m = .item it →
        (hostSend m s).inItems = s.inItems ++ [it] ∧ SameOtherQueues s (hostSend m s)))

/-! ### Invariants -/

/-- The invariant holds after reset, for every START and DBG0 and every canonical MEM0. -/
def Obligations.InvHoldsAfterReset : Prop :=
  State.reset.Inv Config.opc ∧
    ∀ (opc : OpcodeMap) (p : RunParams), p.mem0.wf = true → (State.resetWith p).Inv opc

/-- Every step keeps the invariant: the memory's canonical form (R50), the PC in 0x000 to
0x100 (R23), the legal pairs of phase and run state (R182), CYC 0 during the load (R271),
at most one OUT and one FATAL event (R135, R134). -/
def Obligations.EveryStepKeepsInv : Prop :=
  ∀ (opc : OpcodeMap) (s t : State), s.Inv opc → stepWith opc s = .next t → t.Inv opc

/-- R63: no access of the machine goes out of range, so from a state with the invariant the
machine faults exactly when its run is aborted, and it refuses nothing. That an aborted run
is a fault is the model's reading of R242 (log entry 12). -/
def Obligations.OnlyAnAbortedRunFaults : Prop :=
  ∀ (opc : OpcodeMap) (s : State), s.Inv opc →
    (∀ r, stepWith opc s ≠ .refused r) ∧
      ∀ f, stepWith opc s = .fault f ↔ s.aborted ∧ f = .inputMalformed

/-- R242, U4: with no malformed item in the input stream a step of a run that is not aborted
is safe: it answers a next state, and that state is not aborted. -/
def Obligations.WellFormedInputIsSafe : Prop :=
  ∀ (opc : OpcodeMap) (s : State), s.Inv opc → ¬ s.aborted →
    .malformed ∉ s.inItems → SafeStep opc s

/-- The host's moves keep the invariant too, a reset with a canonical MEM0 among them. -/
def Obligations.HostMovesKeepInv : Prop :=
  ∀ (opc : OpcodeMap) (m : HostMove) (s : State), s.Inv opc →
    (∀ p, m = .reset p → p.mem0.wf = true) → (hostSend m s).Inv opc

/-- The instruction of a table word placed in any state is what the next step runs (log
entry 11). -/
def Obligations.PlacedWordIsRunByTheNextStep : Prop :=
  ∀ (s : State) (nbits w : Nat) (i : Instr), decodeTableWord nbits w = some i →
    s.journalEnabled = false → s.verboseTrace = false →
    step (s.withFetchWord nbits w) =
      exec i { s.withFetchWord nbits w with cyc := s.cyc + 1 }
end

