-- ==== Sys2Proof/Laws/Decode.lean ====
section
/-!
SUPPORT. The decoder (30_encoding R83): what `decodeByte` answers for any opcode
map and for a well-formed one, and what `decodeWith` answers for two bytes.
-/

namespace Sys2Proof

theorem Mnemonic.mem_all (m : Mnemonic) : m ∈ Mnemonic.all := by
  cases m <;> decide

/-- The opcode map is well-formed exactly if it is injective (R85). -/
theorem OpcodeMap.wellFormed_iff (opc : OpcodeMap) :
    opc.wellFormed = true ↔ ∀ m n : Mnemonic, opc m = opc n → m = n := by
  have nodup : Mnemonic.all.Nodup := by decide
  simp only [OpcodeMap.wellFormed, decide_eq_true_eq]
  constructor
  · intro h m n hmn
    exact List.inj_on_of_nodup_map h m.mem_all n.mem_all hmn
  · exact fun h => nodup.map (fun m n => h m n)

/-- Whatever is decoded has the byte as its opcode. -/
theorem decodeByte_some {opc : OpcodeMap} {b : Byte} {m : Mnemonic}
    (h : decodeByte opc b = some m) : opc m = b := by
  simpa using List.find?_some h

theorem decodeByte_none {opc : OpcodeMap} {b : Byte} :
    decodeByte opc b = none ↔ ∀ m, opc m ≠ b := by
  simp [decodeByte, Mnemonic.mem_all]

/-- With an injective map an opcode byte decodes to its row. -/
theorem decodeByte_opc {opc : OpcodeMap} (h : opc.wellFormed = true) (m : Mnemonic) :
    decodeByte opc (opc m) = some m := by
  cases hd : decodeByte opc (opc m) with
  | none => exact absurd rfl (decodeByte_none.1 hd m)
  | some n => rw [(OpcodeMap.wellFormed_iff opc).1 h n m (decodeByte_some hd)]

@[simp] theorem Instr.ofMnemonic_mnemonic (m : Mnemonic) (opnd : Byte) :
    (Instr.ofMnemonic m opnd).mnemonic = m := by
  cases m <;> rfl

@[simp] theorem Instr.ofMnemonic_operand (m : Mnemonic) (opnd : Byte) :
    (Instr.ofMnemonic m opnd).operand = opnd := by
  cases m <;> rfl

theorem decodeWith_some {opc : OpcodeMap} {b opnd : Byte} {rest : List Byte} {m : Mnemonic}
    (h : decodeByte opc b = some m) :
    decodeWith opc (b :: opnd :: rest) = .ok (Instr.ofMnemonic m opnd, rest) := by
  simp [decodeWith, h]

theorem decodeWith_none {opc : OpcodeMap} {b opnd : Byte} {rest : List Byte}
    (h : decodeByte opc b = none) :
    decodeWith opc (b :: opnd :: rest) = .error (.unrecognized b) := by
  simp [decodeWith, h]

/-- What two or more bytes decode to, the other way round. -/
theorem decodeWith_ok {opc : OpcodeMap} {b opnd : Byte} {rest r : List Byte} {i : Instr}
    (h : decodeWith opc (b :: opnd :: rest) = .ok (i, r)) :
    ∃ m, decodeByte opc b = some m ∧ i = Instr.ofMnemonic m opnd ∧ r = rest := by
  cases hd : decodeByte opc b with
  | none => simp [decodeWith, hd] at h
  | some m =>
    simp only [decodeWith, hd, Except.ok.injEq, Prod.mk.injEq] at h
    exact ⟨m, rfl, h.1.symm, h.2.symm⟩

theorem opc_wellFormed : Config.opc.wellFormed = true := by decide

end Sys2Proof
end

