-- ==== Sys2Proof/Laws/State.lean ====
section
/-!
SUPPORT. One lemma per field of State per single-field update, so that no proof
unfolds a record update: the field the update writes, and every other field.
-/

namespace Sys2Proof.Machine

/-! ### State.setA -/

@[simp] theorem State.setA_a (s : State) (v : Byte) : (s.setA v).a = v := rfl
@[simp] theorem State.setA_pc (s : State) (v : Byte) : (s.setA v).pc = s.pc := rfl
@[simp] theorem State.setA_mem (s : State) (v : Byte) : (s.setA v).mem = s.mem := rfl
@[simp] theorem State.setA_cyc (s : State) (v : Byte) : (s.setA v).cyc = s.cyc := rfl
@[simp] theorem State.setA_rs (s : State) (v : Byte) : (s.setA v).rs = s.rs := rfl
@[simp] theorem State.setA_ph (s : State) (v : Byte) : (s.setA v).ph = s.ph := rfl
@[simp] theorem State.setA_stepping (s : State) (v : Byte) : (s.setA v).stepping = s.stepping := rfl
@[simp] theorem State.setA_verboseTrace (s : State) (v : Byte) : (s.setA v).verboseTrace = s.verboseTrace := rfl
@[simp] theorem State.setA_journalEnabled (s : State) (v : Byte) : (s.setA v).journalEnabled = s.journalEnabled := rfl
@[simp] theorem State.setA_breakpointArmed (s : State) (v : Byte) : (s.setA v).breakpointArmed = s.breakpointArmed := rfl
@[simp] theorem State.setA_breakpointAddress (s : State) (v : Byte) : (s.setA v).breakpointAddress = s.breakpointAddress := rfl
@[simp] theorem State.setA_dumpOnLoad (s : State) (v : Byte) : (s.setA v).dumpOnLoad = s.dumpOnLoad := rfl
@[simp] theorem State.setA_dumpPause (s : State) (v : Byte) : (s.setA v).dumpPause = s.dumpPause := rfl
@[simp] theorem State.setA_inItems (s : State) (v : Byte) : (s.setA v).inItems = s.inItems := rfl
@[simp] theorem State.setA_resumes (s : State) (v : Byte) : (s.setA v).resumes = s.resumes := rfl
@[simp] theorem State.setA_lines (s : State) (v : Byte) : (s.setA v).lines = s.lines := rfl
@[simp] theorem State.setA_loads (s : State) (v : Byte) : (s.setA v).loads = s.loads := rfl
@[simp] theorem State.setA_events (s : State) (v : Byte) : (s.setA v).events = s.events := rfl

/-! ### State.setPc -/

@[simp] theorem State.setPc_a (s : State) (v : PcWord) : (s.setPc v).a = s.a := rfl
@[simp] theorem State.setPc_pc (s : State) (v : PcWord) : (s.setPc v).pc = v := rfl
@[simp] theorem State.setPc_mem (s : State) (v : PcWord) : (s.setPc v).mem = s.mem := rfl
@[simp] theorem State.setPc_cyc (s : State) (v : PcWord) : (s.setPc v).cyc = s.cyc := rfl
@[simp] theorem State.setPc_rs (s : State) (v : PcWord) : (s.setPc v).rs = s.rs := rfl
@[simp] theorem State.setPc_ph (s : State) (v : PcWord) : (s.setPc v).ph = s.ph := rfl
@[simp] theorem State.setPc_stepping (s : State) (v : PcWord) : (s.setPc v).stepping = s.stepping := rfl
@[simp] theorem State.setPc_verboseTrace (s : State) (v : PcWord) : (s.setPc v).verboseTrace = s.verboseTrace := rfl
@[simp] theorem State.setPc_journalEnabled (s : State) (v : PcWord) : (s.setPc v).journalEnabled = s.journalEnabled := rfl
@[simp] theorem State.setPc_breakpointArmed (s : State) (v : PcWord) : (s.setPc v).breakpointArmed = s.breakpointArmed := rfl
@[simp] theorem State.setPc_breakpointAddress (s : State) (v : PcWord) : (s.setPc v).breakpointAddress = s.breakpointAddress := rfl
@[simp] theorem State.setPc_dumpOnLoad (s : State) (v : PcWord) : (s.setPc v).dumpOnLoad = s.dumpOnLoad := rfl
@[simp] theorem State.setPc_dumpPause (s : State) (v : PcWord) : (s.setPc v).dumpPause = s.dumpPause := rfl
@[simp] theorem State.setPc_inItems (s : State) (v : PcWord) : (s.setPc v).inItems = s.inItems := rfl
@[simp] theorem State.setPc_resumes (s : State) (v : PcWord) : (s.setPc v).resumes = s.resumes := rfl
@[simp] theorem State.setPc_lines (s : State) (v : PcWord) : (s.setPc v).lines = s.lines := rfl
@[simp] theorem State.setPc_loads (s : State) (v : PcWord) : (s.setPc v).loads = s.loads := rfl
@[simp] theorem State.setPc_events (s : State) (v : PcWord) : (s.setPc v).events = s.events := rfl

/-! ### State.setMem -/

@[simp] theorem State.setMem_a (s : State) (v : Memory) : (s.setMem v).a = s.a := rfl
@[simp] theorem State.setMem_pc (s : State) (v : Memory) : (s.setMem v).pc = s.pc := rfl
@[simp] theorem State.setMem_mem (s : State) (v : Memory) : (s.setMem v).mem = v := rfl
@[simp] theorem State.setMem_cyc (s : State) (v : Memory) : (s.setMem v).cyc = s.cyc := rfl
@[simp] theorem State.setMem_rs (s : State) (v : Memory) : (s.setMem v).rs = s.rs := rfl
@[simp] theorem State.setMem_ph (s : State) (v : Memory) : (s.setMem v).ph = s.ph := rfl
@[simp] theorem State.setMem_stepping (s : State) (v : Memory) : (s.setMem v).stepping = s.stepping := rfl
@[simp] theorem State.setMem_verboseTrace (s : State) (v : Memory) : (s.setMem v).verboseTrace = s.verboseTrace := rfl
@[simp] theorem State.setMem_journalEnabled (s : State) (v : Memory) : (s.setMem v).journalEnabled = s.journalEnabled := rfl
@[simp] theorem State.setMem_breakpointArmed (s : State) (v : Memory) : (s.setMem v).breakpointArmed = s.breakpointArmed := rfl
@[simp] theorem State.setMem_breakpointAddress (s : State) (v : Memory) : (s.setMem v).breakpointAddress = s.breakpointAddress := rfl
@[simp] theorem State.setMem_dumpOnLoad (s : State) (v : Memory) : (s.setMem v).dumpOnLoad = s.dumpOnLoad := rfl
@[simp] theorem State.setMem_dumpPause (s : State) (v : Memory) : (s.setMem v).dumpPause = s.dumpPause := rfl
@[simp] theorem State.setMem_inItems (s : State) (v : Memory) : (s.setMem v).inItems = s.inItems := rfl
@[simp] theorem State.setMem_resumes (s : State) (v : Memory) : (s.setMem v).resumes = s.resumes := rfl
@[simp] theorem State.setMem_lines (s : State) (v : Memory) : (s.setMem v).lines = s.lines := rfl
@[simp] theorem State.setMem_loads (s : State) (v : Memory) : (s.setMem v).loads = s.loads := rfl
@[simp] theorem State.setMem_events (s : State) (v : Memory) : (s.setMem v).events = s.events := rfl

/-! ### State.setCyc -/

@[simp] theorem State.setCyc_a (s : State) (v : Nat) : (s.setCyc v).a = s.a := rfl
@[simp] theorem State.setCyc_pc (s : State) (v : Nat) : (s.setCyc v).pc = s.pc := rfl
@[simp] theorem State.setCyc_mem (s : State) (v : Nat) : (s.setCyc v).mem = s.mem := rfl
@[simp] theorem State.setCyc_cyc (s : State) (v : Nat) : (s.setCyc v).cyc = v := rfl
@[simp] theorem State.setCyc_rs (s : State) (v : Nat) : (s.setCyc v).rs = s.rs := rfl
@[simp] theorem State.setCyc_ph (s : State) (v : Nat) : (s.setCyc v).ph = s.ph := rfl
@[simp] theorem State.setCyc_stepping (s : State) (v : Nat) : (s.setCyc v).stepping = s.stepping := rfl
@[simp] theorem State.setCyc_verboseTrace (s : State) (v : Nat) : (s.setCyc v).verboseTrace = s.verboseTrace := rfl
@[simp] theorem State.setCyc_journalEnabled (s : State) (v : Nat) : (s.setCyc v).journalEnabled = s.journalEnabled := rfl
@[simp] theorem State.setCyc_breakpointArmed (s : State) (v : Nat) : (s.setCyc v).breakpointArmed = s.breakpointArmed := rfl
@[simp] theorem State.setCyc_breakpointAddress (s : State) (v : Nat) : (s.setCyc v).breakpointAddress = s.breakpointAddress := rfl
@[simp] theorem State.setCyc_dumpOnLoad (s : State) (v : Nat) : (s.setCyc v).dumpOnLoad = s.dumpOnLoad := rfl
@[simp] theorem State.setCyc_dumpPause (s : State) (v : Nat) : (s.setCyc v).dumpPause = s.dumpPause := rfl
@[simp] theorem State.setCyc_inItems (s : State) (v : Nat) : (s.setCyc v).inItems = s.inItems := rfl
@[simp] theorem State.setCyc_resumes (s : State) (v : Nat) : (s.setCyc v).resumes = s.resumes := rfl
@[simp] theorem State.setCyc_lines (s : State) (v : Nat) : (s.setCyc v).lines = s.lines := rfl
@[simp] theorem State.setCyc_loads (s : State) (v : Nat) : (s.setCyc v).loads = s.loads := rfl
@[simp] theorem State.setCyc_events (s : State) (v : Nat) : (s.setCyc v).events = s.events := rfl

/-! ### State.setRs -/

@[simp] theorem State.setRs_a (s : State) (v : RunState) : (s.setRs v).a = s.a := rfl
@[simp] theorem State.setRs_pc (s : State) (v : RunState) : (s.setRs v).pc = s.pc := rfl
@[simp] theorem State.setRs_mem (s : State) (v : RunState) : (s.setRs v).mem = s.mem := rfl
@[simp] theorem State.setRs_cyc (s : State) (v : RunState) : (s.setRs v).cyc = s.cyc := rfl
@[simp] theorem State.setRs_rs (s : State) (v : RunState) : (s.setRs v).rs = v := rfl
@[simp] theorem State.setRs_ph (s : State) (v : RunState) : (s.setRs v).ph = s.ph := rfl
@[simp] theorem State.setRs_stepping (s : State) (v : RunState) : (s.setRs v).stepping = s.stepping := rfl
@[simp] theorem State.setRs_verboseTrace (s : State) (v : RunState) : (s.setRs v).verboseTrace = s.verboseTrace := rfl
@[simp] theorem State.setRs_journalEnabled (s : State) (v : RunState) : (s.setRs v).journalEnabled = s.journalEnabled := rfl
@[simp] theorem State.setRs_breakpointArmed (s : State) (v : RunState) : (s.setRs v).breakpointArmed = s.breakpointArmed := rfl
@[simp] theorem State.setRs_breakpointAddress (s : State) (v : RunState) : (s.setRs v).breakpointAddress = s.breakpointAddress := rfl
@[simp] theorem State.setRs_dumpOnLoad (s : State) (v : RunState) : (s.setRs v).dumpOnLoad = s.dumpOnLoad := rfl
@[simp] theorem State.setRs_dumpPause (s : State) (v : RunState) : (s.setRs v).dumpPause = s.dumpPause := rfl
@[simp] theorem State.setRs_inItems (s : State) (v : RunState) : (s.setRs v).inItems = s.inItems := rfl
@[simp] theorem State.setRs_resumes (s : State) (v : RunState) : (s.setRs v).resumes = s.resumes := rfl
@[simp] theorem State.setRs_lines (s : State) (v : RunState) : (s.setRs v).lines = s.lines := rfl
@[simp] theorem State.setRs_loads (s : State) (v : RunState) : (s.setRs v).loads = s.loads := rfl
@[simp] theorem State.setRs_events (s : State) (v : RunState) : (s.setRs v).events = s.events := rfl

/-! ### State.setPh -/

@[simp] theorem State.setPh_a (s : State) (v : Phase) : (s.setPh v).a = s.a := rfl
@[simp] theorem State.setPh_pc (s : State) (v : Phase) : (s.setPh v).pc = s.pc := rfl
@[simp] theorem State.setPh_mem (s : State) (v : Phase) : (s.setPh v).mem = s.mem := rfl
@[simp] theorem State.setPh_cyc (s : State) (v : Phase) : (s.setPh v).cyc = s.cyc := rfl
@[simp] theorem State.setPh_rs (s : State) (v : Phase) : (s.setPh v).rs = s.rs := rfl
@[simp] theorem State.setPh_ph (s : State) (v : Phase) : (s.setPh v).ph = v := rfl
@[simp] theorem State.setPh_stepping (s : State) (v : Phase) : (s.setPh v).stepping = s.stepping := rfl
@[simp] theorem State.setPh_verboseTrace (s : State) (v : Phase) : (s.setPh v).verboseTrace = s.verboseTrace := rfl
@[simp] theorem State.setPh_journalEnabled (s : State) (v : Phase) : (s.setPh v).journalEnabled = s.journalEnabled := rfl
@[simp] theorem State.setPh_breakpointArmed (s : State) (v : Phase) : (s.setPh v).breakpointArmed = s.breakpointArmed := rfl
@[simp] theorem State.setPh_breakpointAddress (s : State) (v : Phase) : (s.setPh v).breakpointAddress = s.breakpointAddress := rfl
@[simp] theorem State.setPh_dumpOnLoad (s : State) (v : Phase) : (s.setPh v).dumpOnLoad = s.dumpOnLoad := rfl
@[simp] theorem State.setPh_dumpPause (s : State) (v : Phase) : (s.setPh v).dumpPause = s.dumpPause := rfl
@[simp] theorem State.setPh_inItems (s : State) (v : Phase) : (s.setPh v).inItems = s.inItems := rfl
@[simp] theorem State.setPh_resumes (s : State) (v : Phase) : (s.setPh v).resumes = s.resumes := rfl
@[simp] theorem State.setPh_lines (s : State) (v : Phase) : (s.setPh v).lines = s.lines := rfl
@[simp] theorem State.setPh_loads (s : State) (v : Phase) : (s.setPh v).loads = s.loads := rfl
@[simp] theorem State.setPh_events (s : State) (v : Phase) : (s.setPh v).events = s.events := rfl

/-! ### State.setStepping -/

@[simp] theorem State.setStepping_a (s : State) (v : Bool) : (s.setStepping v).a = s.a := rfl
@[simp] theorem State.setStepping_pc (s : State) (v : Bool) : (s.setStepping v).pc = s.pc := rfl
@[simp] theorem State.setStepping_mem (s : State) (v : Bool) : (s.setStepping v).mem = s.mem := rfl
@[simp] theorem State.setStepping_cyc (s : State) (v : Bool) : (s.setStepping v).cyc = s.cyc := rfl
@[simp] theorem State.setStepping_rs (s : State) (v : Bool) : (s.setStepping v).rs = s.rs := rfl
@[simp] theorem State.setStepping_ph (s : State) (v : Bool) : (s.setStepping v).ph = s.ph := rfl
@[simp] theorem State.setStepping_stepping (s : State) (v : Bool) : (s.setStepping v).stepping = v := rfl
@[simp] theorem State.setStepping_verboseTrace (s : State) (v : Bool) : (s.setStepping v).verboseTrace = s.verboseTrace := rfl
@[simp] theorem State.setStepping_journalEnabled (s : State) (v : Bool) : (s.setStepping v).journalEnabled = s.journalEnabled := rfl
@[simp] theorem State.setStepping_breakpointArmed (s : State) (v : Bool) : (s.setStepping v).breakpointArmed = s.breakpointArmed := rfl
@[simp] theorem State.setStepping_breakpointAddress (s : State) (v : Bool) : (s.setStepping v).breakpointAddress = s.breakpointAddress := rfl
@[simp] theorem State.setStepping_dumpOnLoad (s : State) (v : Bool) : (s.setStepping v).dumpOnLoad = s.dumpOnLoad := rfl
@[simp] theorem State.setStepping_dumpPause (s : State) (v : Bool) : (s.setStepping v).dumpPause = s.dumpPause := rfl
@[simp] theorem State.setStepping_inItems (s : State) (v : Bool) : (s.setStepping v).inItems = s.inItems := rfl
@[simp] theorem State.setStepping_resumes (s : State) (v : Bool) : (s.setStepping v).resumes = s.resumes := rfl
@[simp] theorem State.setStepping_lines (s : State) (v : Bool) : (s.setStepping v).lines = s.lines := rfl
@[simp] theorem State.setStepping_loads (s : State) (v : Bool) : (s.setStepping v).loads = s.loads := rfl
@[simp] theorem State.setStepping_events (s : State) (v : Bool) : (s.setStepping v).events = s.events := rfl

/-! ### State.setVerboseTrace -/

@[simp] theorem State.setVerboseTrace_a (s : State) (v : Bool) : (s.setVerboseTrace v).a = s.a := rfl
@[simp] theorem State.setVerboseTrace_pc (s : State) (v : Bool) : (s.setVerboseTrace v).pc = s.pc := rfl
@[simp] theorem State.setVerboseTrace_mem (s : State) (v : Bool) : (s.setVerboseTrace v).mem = s.mem := rfl
@[simp] theorem State.setVerboseTrace_cyc (s : State) (v : Bool) : (s.setVerboseTrace v).cyc = s.cyc := rfl
@[simp] theorem State.setVerboseTrace_rs (s : State) (v : Bool) : (s.setVerboseTrace v).rs = s.rs := rfl
@[simp] theorem State.setVerboseTrace_ph (s : State) (v : Bool) : (s.setVerboseTrace v).ph = s.ph := rfl
@[simp] theorem State.setVerboseTrace_stepping (s : State) (v : Bool) : (s.setVerboseTrace v).stepping = s.stepping := rfl
@[simp] theorem State.setVerboseTrace_verboseTrace (s : State) (v : Bool) : (s.setVerboseTrace v).verboseTrace = v := rfl
@[simp] theorem State.setVerboseTrace_journalEnabled (s : State) (v : Bool) : (s.setVerboseTrace v).journalEnabled = s.journalEnabled := rfl
@[simp] theorem State.setVerboseTrace_breakpointArmed (s : State) (v : Bool) : (s.setVerboseTrace v).breakpointArmed = s.breakpointArmed := rfl
@[simp] theorem State.setVerboseTrace_breakpointAddress (s : State) (v : Bool) : (s.setVerboseTrace v).breakpointAddress = s.breakpointAddress := rfl
@[simp] theorem State.setVerboseTrace_dumpOnLoad (s : State) (v : Bool) : (s.setVerboseTrace v).dumpOnLoad = s.dumpOnLoad := rfl
@[simp] theorem State.setVerboseTrace_dumpPause (s : State) (v : Bool) : (s.setVerboseTrace v).dumpPause = s.dumpPause := rfl
@[simp] theorem State.setVerboseTrace_inItems (s : State) (v : Bool) : (s.setVerboseTrace v).inItems = s.inItems := rfl
@[simp] theorem State.setVerboseTrace_resumes (s : State) (v : Bool) : (s.setVerboseTrace v).resumes = s.resumes := rfl
@[simp] theorem State.setVerboseTrace_lines (s : State) (v : Bool) : (s.setVerboseTrace v).lines = s.lines := rfl
@[simp] theorem State.setVerboseTrace_loads (s : State) (v : Bool) : (s.setVerboseTrace v).loads = s.loads := rfl
@[simp] theorem State.setVerboseTrace_events (s : State) (v : Bool) : (s.setVerboseTrace v).events = s.events := rfl

/-! ### State.setDumpPause -/

@[simp] theorem State.setDumpPause_a (s : State) (v : Bool) : (s.setDumpPause v).a = s.a := rfl
@[simp] theorem State.setDumpPause_pc (s : State) (v : Bool) : (s.setDumpPause v).pc = s.pc := rfl
@[simp] theorem State.setDumpPause_mem (s : State) (v : Bool) : (s.setDumpPause v).mem = s.mem := rfl
@[simp] theorem State.setDumpPause_cyc (s : State) (v : Bool) : (s.setDumpPause v).cyc = s.cyc := rfl
@[simp] theorem State.setDumpPause_rs (s : State) (v : Bool) : (s.setDumpPause v).rs = s.rs := rfl
@[simp] theorem State.setDumpPause_ph (s : State) (v : Bool) : (s.setDumpPause v).ph = s.ph := rfl
@[simp] theorem State.setDumpPause_stepping (s : State) (v : Bool) : (s.setDumpPause v).stepping = s.stepping := rfl
@[simp] theorem State.setDumpPause_verboseTrace (s : State) (v : Bool) : (s.setDumpPause v).verboseTrace = s.verboseTrace := rfl
@[simp] theorem State.setDumpPause_journalEnabled (s : State) (v : Bool) : (s.setDumpPause v).journalEnabled = s.journalEnabled := rfl
@[simp] theorem State.setDumpPause_breakpointArmed (s : State) (v : Bool) : (s.setDumpPause v).breakpointArmed = s.breakpointArmed := rfl
@[simp] theorem State.setDumpPause_breakpointAddress (s : State) (v : Bool) : (s.setDumpPause v).breakpointAddress = s.breakpointAddress := rfl
@[simp] theorem State.setDumpPause_dumpOnLoad (s : State) (v : Bool) : (s.setDumpPause v).dumpOnLoad = s.dumpOnLoad := rfl
@[simp] theorem State.setDumpPause_dumpPause (s : State) (v : Bool) : (s.setDumpPause v).dumpPause = v := rfl
@[simp] theorem State.setDumpPause_inItems (s : State) (v : Bool) : (s.setDumpPause v).inItems = s.inItems := rfl
@[simp] theorem State.setDumpPause_resumes (s : State) (v : Bool) : (s.setDumpPause v).resumes = s.resumes := rfl
@[simp] theorem State.setDumpPause_lines (s : State) (v : Bool) : (s.setDumpPause v).lines = s.lines := rfl
@[simp] theorem State.setDumpPause_loads (s : State) (v : Bool) : (s.setDumpPause v).loads = s.loads := rfl
@[simp] theorem State.setDumpPause_events (s : State) (v : Bool) : (s.setDumpPause v).events = s.events := rfl

/-! ### State.setInItems -/

@[simp] theorem State.setInItems_a (s : State) (v : List InputItem) : (s.setInItems v).a = s.a := rfl
@[simp] theorem State.setInItems_pc (s : State) (v : List InputItem) : (s.setInItems v).pc = s.pc := rfl
@[simp] theorem State.setInItems_mem (s : State) (v : List InputItem) : (s.setInItems v).mem = s.mem := rfl
@[simp] theorem State.setInItems_cyc (s : State) (v : List InputItem) : (s.setInItems v).cyc = s.cyc := rfl
@[simp] theorem State.setInItems_rs (s : State) (v : List InputItem) : (s.setInItems v).rs = s.rs := rfl
@[simp] theorem State.setInItems_ph (s : State) (v : List InputItem) : (s.setInItems v).ph = s.ph := rfl
@[simp] theorem State.setInItems_stepping (s : State) (v : List InputItem) : (s.setInItems v).stepping = s.stepping := rfl
@[simp] theorem State.setInItems_verboseTrace (s : State) (v : List InputItem) : (s.setInItems v).verboseTrace = s.verboseTrace := rfl
@[simp] theorem State.setInItems_journalEnabled (s : State) (v : List InputItem) : (s.setInItems v).journalEnabled = s.journalEnabled := rfl
@[simp] theorem State.setInItems_breakpointArmed (s : State) (v : List InputItem) : (s.setInItems v).breakpointArmed = s.breakpointArmed := rfl
@[simp] theorem State.setInItems_breakpointAddress (s : State) (v : List InputItem) : (s.setInItems v).breakpointAddress = s.breakpointAddress := rfl
@[simp] theorem State.setInItems_dumpOnLoad (s : State) (v : List InputItem) : (s.setInItems v).dumpOnLoad = s.dumpOnLoad := rfl
@[simp] theorem State.setInItems_dumpPause (s : State) (v : List InputItem) : (s.setInItems v).dumpPause = s.dumpPause := rfl
@[simp] theorem State.setInItems_inItems (s : State) (v : List InputItem) : (s.setInItems v).inItems = v := rfl
@[simp] theorem State.setInItems_resumes (s : State) (v : List InputItem) : (s.setInItems v).resumes = s.resumes := rfl
@[simp] theorem State.setInItems_lines (s : State) (v : List InputItem) : (s.setInItems v).lines = s.lines := rfl
@[simp] theorem State.setInItems_loads (s : State) (v : List InputItem) : (s.setInItems v).loads = s.loads := rfl
@[simp] theorem State.setInItems_events (s : State) (v : List InputItem) : (s.setInItems v).events = s.events := rfl

/-! ### State.setResumes -/

@[simp] theorem State.setResumes_a (s : State) (v : Nat) : (s.setResumes v).a = s.a := rfl
@[simp] theorem State.setResumes_pc (s : State) (v : Nat) : (s.setResumes v).pc = s.pc := rfl
@[simp] theorem State.setResumes_mem (s : State) (v : Nat) : (s.setResumes v).mem = s.mem := rfl
@[simp] theorem State.setResumes_cyc (s : State) (v : Nat) : (s.setResumes v).cyc = s.cyc := rfl
@[simp] theorem State.setResumes_rs (s : State) (v : Nat) : (s.setResumes v).rs = s.rs := rfl
@[simp] theorem State.setResumes_ph (s : State) (v : Nat) : (s.setResumes v).ph = s.ph := rfl
@[simp] theorem State.setResumes_stepping (s : State) (v : Nat) : (s.setResumes v).stepping = s.stepping := rfl
@[simp] theorem State.setResumes_verboseTrace (s : State) (v : Nat) : (s.setResumes v).verboseTrace = s.verboseTrace := rfl
@[simp] theorem State.setResumes_journalEnabled (s : State) (v : Nat) : (s.setResumes v).journalEnabled = s.journalEnabled := rfl
@[simp] theorem State.setResumes_breakpointArmed (s : State) (v : Nat) : (s.setResumes v).breakpointArmed = s.breakpointArmed := rfl
@[simp] theorem State.setResumes_breakpointAddress (s : State) (v : Nat) : (s.setResumes v).breakpointAddress = s.breakpointAddress := rfl
@[simp] theorem State.setResumes_dumpOnLoad (s : State) (v : Nat) : (s.setResumes v).dumpOnLoad = s.dumpOnLoad := rfl
@[simp] theorem State.setResumes_dumpPause (s : State) (v : Nat) : (s.setResumes v).dumpPause = s.dumpPause := rfl
@[simp] theorem State.setResumes_inItems (s : State) (v : Nat) : (s.setResumes v).inItems = s.inItems := rfl
@[simp] theorem State.setResumes_resumes (s : State) (v : Nat) : (s.setResumes v).resumes = v := rfl
@[simp] theorem State.setResumes_lines (s : State) (v : Nat) : (s.setResumes v).lines = s.lines := rfl
@[simp] theorem State.setResumes_loads (s : State) (v : Nat) : (s.setResumes v).loads = s.loads := rfl
@[simp] theorem State.setResumes_events (s : State) (v : Nat) : (s.setResumes v).events = s.events := rfl

/-! ### State.setLines -/

@[simp] theorem State.setLines_a (s : State) (v : List Line) : (s.setLines v).a = s.a := rfl
@[simp] theorem State.setLines_pc (s : State) (v : List Line) : (s.setLines v).pc = s.pc := rfl
@[simp] theorem State.setLines_mem (s : State) (v : List Line) : (s.setLines v).mem = s.mem := rfl
@[simp] theorem State.setLines_cyc (s : State) (v : List Line) : (s.setLines v).cyc = s.cyc := rfl
@[simp] theorem State.setLines_rs (s : State) (v : List Line) : (s.setLines v).rs = s.rs := rfl
@[simp] theorem State.setLines_ph (s : State) (v : List Line) : (s.setLines v).ph = s.ph := rfl
@[simp] theorem State.setLines_stepping (s : State) (v : List Line) : (s.setLines v).stepping = s.stepping := rfl
@[simp] theorem State.setLines_verboseTrace (s : State) (v : List Line) : (s.setLines v).verboseTrace = s.verboseTrace := rfl
@[simp] theorem State.setLines_journalEnabled (s : State) (v : List Line) : (s.setLines v).journalEnabled = s.journalEnabled := rfl
@[simp] theorem State.setLines_breakpointArmed (s : State) (v : List Line) : (s.setLines v).breakpointArmed = s.breakpointArmed := rfl
@[simp] theorem State.setLines_breakpointAddress (s : State) (v : List Line) : (s.setLines v).breakpointAddress = s.breakpointAddress := rfl
@[simp] theorem State.setLines_dumpOnLoad (s : State) (v : List Line) : (s.setLines v).dumpOnLoad = s.dumpOnLoad := rfl
@[simp] theorem State.setLines_dumpPause (s : State) (v : List Line) : (s.setLines v).dumpPause = s.dumpPause := rfl
@[simp] theorem State.setLines_inItems (s : State) (v : List Line) : (s.setLines v).inItems = s.inItems := rfl
@[simp] theorem State.setLines_resumes (s : State) (v : List Line) : (s.setLines v).resumes = s.resumes := rfl
@[simp] theorem State.setLines_lines (s : State) (v : List Line) : (s.setLines v).lines = v := rfl
@[simp] theorem State.setLines_loads (s : State) (v : List Line) : (s.setLines v).loads = s.loads := rfl
@[simp] theorem State.setLines_events (s : State) (v : List Line) : (s.setLines v).events = s.events := rfl

/-! ### State.setLoads -/

@[simp] theorem State.setLoads_a (s : State) (v : List LoadMove) : (s.setLoads v).a = s.a := rfl
@[simp] theorem State.setLoads_pc (s : State) (v : List LoadMove) : (s.setLoads v).pc = s.pc := rfl
@[simp] theorem State.setLoads_mem (s : State) (v : List LoadMove) : (s.setLoads v).mem = s.mem := rfl
@[simp] theorem State.setLoads_cyc (s : State) (v : List LoadMove) : (s.setLoads v).cyc = s.cyc := rfl
@[simp] theorem State.setLoads_rs (s : State) (v : List LoadMove) : (s.setLoads v).rs = s.rs := rfl
@[simp] theorem State.setLoads_ph (s : State) (v : List LoadMove) : (s.setLoads v).ph = s.ph := rfl
@[simp] theorem State.setLoads_stepping (s : State) (v : List LoadMove) : (s.setLoads v).stepping = s.stepping := rfl
@[simp] theorem State.setLoads_verboseTrace (s : State) (v : List LoadMove) : (s.setLoads v).verboseTrace = s.verboseTrace := rfl
@[simp] theorem State.setLoads_journalEnabled (s : State) (v : List LoadMove) : (s.setLoads v).journalEnabled = s.journalEnabled := rfl
@[simp] theorem State.setLoads_breakpointArmed (s : State) (v : List LoadMove) : (s.setLoads v).breakpointArmed = s.breakpointArmed := rfl
@[simp] theorem State.setLoads_breakpointAddress (s : State) (v : List LoadMove) : (s.setLoads v).breakpointAddress = s.breakpointAddress := rfl
@[simp] theorem State.setLoads_dumpOnLoad (s : State) (v : List LoadMove) : (s.setLoads v).dumpOnLoad = s.dumpOnLoad := rfl
@[simp] theorem State.setLoads_dumpPause (s : State) (v : List LoadMove) : (s.setLoads v).dumpPause = s.dumpPause := rfl
@[simp] theorem State.setLoads_inItems (s : State) (v : List LoadMove) : (s.setLoads v).inItems = s.inItems := rfl
@[simp] theorem State.setLoads_resumes (s : State) (v : List LoadMove) : (s.setLoads v).resumes = s.resumes := rfl
@[simp] theorem State.setLoads_lines (s : State) (v : List LoadMove) : (s.setLoads v).lines = s.lines := rfl
@[simp] theorem State.setLoads_loads (s : State) (v : List LoadMove) : (s.setLoads v).loads = v := rfl
@[simp] theorem State.setLoads_events (s : State) (v : List LoadMove) : (s.setLoads v).events = s.events := rfl

/-! ### State.emit -/

@[simp] theorem State.emit_a (s : State) (e : Event) : (s.emit e).a = s.a := rfl
@[simp] theorem State.emit_pc (s : State) (e : Event) : (s.emit e).pc = s.pc := rfl
@[simp] theorem State.emit_mem (s : State) (e : Event) : (s.emit e).mem = s.mem := rfl
@[simp] theorem State.emit_cyc (s : State) (e : Event) : (s.emit e).cyc = s.cyc := rfl
@[simp] theorem State.emit_rs (s : State) (e : Event) : (s.emit e).rs = s.rs := rfl
@[simp] theorem State.emit_ph (s : State) (e : Event) : (s.emit e).ph = s.ph := rfl
@[simp] theorem State.emit_stepping (s : State) (e : Event) : (s.emit e).stepping = s.stepping := rfl
@[simp] theorem State.emit_verboseTrace (s : State) (e : Event) : (s.emit e).verboseTrace = s.verboseTrace := rfl
@[simp] theorem State.emit_journalEnabled (s : State) (e : Event) : (s.emit e).journalEnabled = s.journalEnabled := rfl
@[simp] theorem State.emit_breakpointArmed (s : State) (e : Event) : (s.emit e).breakpointArmed = s.breakpointArmed := rfl
@[simp] theorem State.emit_breakpointAddress (s : State) (e : Event) : (s.emit e).breakpointAddress = s.breakpointAddress := rfl
@[simp] theorem State.emit_dumpOnLoad (s : State) (e : Event) : (s.emit e).dumpOnLoad = s.dumpOnLoad := rfl
@[simp] theorem State.emit_dumpPause (s : State) (e : Event) : (s.emit e).dumpPause = s.dumpPause := rfl
@[simp] theorem State.emit_inItems (s : State) (e : Event) : (s.emit e).inItems = s.inItems := rfl
@[simp] theorem State.emit_resumes (s : State) (e : Event) : (s.emit e).resumes = s.resumes := rfl
@[simp] theorem State.emit_lines (s : State) (e : Event) : (s.emit e).lines = s.lines := rfl
@[simp] theorem State.emit_loads (s : State) (e : Event) : (s.emit e).loads = s.loads := rfl
@[simp] theorem State.emit_events (s : State) (e : Event) : (s.emit e).events = s.events ++ [e] := rfl

end Sys2Proof.Machine
end

