-- ==== Sys2Proof/Laws/Memory.lean ====
section
/-!
SUPPORT. The laws of the memory (20_memory R51): a read after a write, on every
list of cells, and the canonical form, which a write keeps.
-/

namespace Sys2Proof.Machine

theorem Memory.read_nil (addr : Byte) : Memory.read [] addr = Memory.unlisted := rfl

theorem Memory.read_cons (k : Nat) (v : Byte) (m : Memory) (addr : Byte) :
    Memory.read ((k, v) :: m) addr = if k = addr.toNat then v else m.read addr := rfl

theorem Memory.read_erase (m : Memory) (addr b : Byte) :
    (m.erase addr).read b = if b = addr then Memory.unlisted else m.read b := by
  induction m with
  | nil => simp [Memory.erase, Memory.read_nil]
  | cons c m ih =>
    obtain ⟨k, v⟩ := c
    unfold Memory.erase at ih ⊢
    by_cases hk : k = addr.toNat
    · subst hk
      rw [List.filter_cons_of_neg (by simp), ih]
      by_cases hb : b = addr
      · simp [hb]
      · have : addr.toNat ≠ b.toNat := fun h => hb (BitVec.eq_of_toNat_eq h.symm)
        simp [hb, Memory.read_cons, this]
    · rw [List.filter_cons_of_pos (by simpa using hk), Memory.read_cons, ih, Memory.read_cons]
      by_cases hb : b = addr
      · subst hb; simp [hk]
      · simp [hb]

/-- An inserted entry is found, where the cell had no entry before it. -/
theorem Memory.read_insert (m : Memory) (addr v b : Byte)
    (h : ∀ c ∈ m, c.1 ≠ addr.toNat) :
    (m.insert addr v).read b = if b = addr then v else m.read b := by
  have hne : b ≠ addr → addr.toNat ≠ b.toNat :=
    fun hb h => hb (BitVec.eq_of_toNat_eq h.symm)
  induction m with
  | nil =>
    by_cases hb : b = addr
    · simp [hb, Memory.insert, Memory.read_cons]
    · simp [hb, Memory.insert, Memory.read_cons, hne hb]
  | cons c m ih =>
    obtain ⟨k, w⟩ := c
    have hk : k ≠ addr.toNat := h (k, w) (by simp)
    have ih := ih (fun c hc => h c (by simp [hc]))
    unfold Memory.insert
    split
    · by_cases hb : b = addr
      · simp [hb, Memory.read_cons]
      · simp [hb, Memory.read_cons, hne hb]
    · rw [Memory.read_cons, ih, Memory.read_cons]
      by_cases hb : b = addr
      · subst hb; simp [hk]
      · simp [hb]

theorem Memory.mem_erase {m : Memory} {addr : Byte} {c : Host.Cell} :
    c ∈ m.erase addr ↔ c ∈ m ∧ c.1 ≠ addr.toNat := by
  simp [Memory.erase]

/-- Read after write (R51): the cell written holds the byte, every other cell what it
held. It holds of every list, canonical or not. -/
theorem Memory.read_write (m : Memory) (addr v b : Byte) :
    (m.write addr v).read b = if b = addr then v else m.read b := by
  unfold Memory.write
  split
  · next hv => rw [Memory.read_erase, hv]
  · rw [Memory.read_insert _ _ _ _ (fun c hc => (Memory.mem_erase.1 hc).2),
      Memory.read_erase]
    by_cases hb : b = addr <;> simp [hb]

@[simp] theorem memRead_memWrite (addr v b : Byte) (s : State) :
    memRead b (memWrite addr v s) = if b = addr then v else memRead b s :=
  Memory.read_write s.mem addr v b

/-! ### The canonical form -/

theorem Memory.wf_iff (m : Memory) :
    m.wf = true ↔ (m.map Prod.fst).Pairwise (· < ·) ∧
      ∀ c ∈ m, c.1 < 256 ∧ c.2 ≠ Memory.unlisted := by
  simp [Memory.wf]

theorem Memory.wf_erase {m : Memory} (addr : Byte) (h : m.wf = true) :
    (m.erase addr).wf = true := by
  rw [Memory.wf_iff] at h ⊢
  refine ⟨h.1.sublist (List.filter_sublist.map _), fun c hc => h.2 c (Memory.mem_erase.1 hc).1⟩

theorem Memory.mem_insert {m : Memory} {addr v : Byte} {c : Host.Cell} :
    c ∈ m.insert addr v ↔ c = (addr.toNat, v) ∨ c ∈ m := by
  induction m with
  | nil => simp [Memory.insert]
  | cons d m ih =>
    obtain ⟨k, w⟩ := d
    unfold Memory.insert
    split
    · simp
    · simp only [List.mem_cons, ih]; tauto

theorem Memory.wf_insert {m : Memory} {addr v : Byte} (h : m.wf = true)
    (hv : v ≠ Memory.unlisted) (hk : ∀ c ∈ m, c.1 ≠ addr.toNat) :
    (m.insert addr v).wf = true := by
  rw [Memory.wf_iff] at h ⊢
  refine ⟨?_, fun c hc => ?_⟩
  · have hp := h.1
    clear h
    induction m with
    | nil => simp [Memory.insert]
    | cons d m ih =>
      obtain ⟨k, w⟩ := d
      have hne : k ≠ addr.toNat := hk (k, w) (by simp)
      simp only [List.map_cons, List.pairwise_cons] at hp
      unfold Memory.insert
      split
      · next hlt =>
        simp only [List.map_cons, List.pairwise_cons, List.mem_cons]
        refine ⟨?_, hp.1, hp.2⟩
        rintro x (rfl | hx)
        · exact hlt
        · exact hlt.trans (hp.1 x hx)
      · next hge =>
        simp only [List.map_cons, List.pairwise_cons]
        refine ⟨fun x hx => ?_, ih (fun c hc => hk c (by simp [hc])) hp.2⟩
        obtain ⟨c, hc, rfl⟩ := List.mem_map.1 hx
        rcases Memory.mem_insert.1 hc with rfl | hc
        · show k < addr.toNat
          omega
        · exact hp.1 _ (List.mem_map_of_mem hc)
  · rcases Memory.mem_insert.1 hc with rfl | hc
    · exact ⟨addr.isLt, hv⟩
    · exact h.2 c hc

/-- Every memory operation keeps the canonical form. -/
theorem Memory.wf_write {m : Memory} (addr v : Byte) (h : m.wf = true) :
    (m.write addr v).wf = true := by
  unfold Memory.write
  split
  · exact Memory.wf_erase addr h
  · next hv =>
    exact Memory.wf_insert (Memory.wf_erase addr h) hv
      (fun c hc => (Memory.mem_erase.1 hc).2)

theorem memWrite_wf {addr v : Byte} {s : State} (h : s.mem.wf = true) :
    (memWrite addr v s).mem.wf = true :=
  Memory.wf_write addr v h

theorem reset_mem_wf : State.reset.mem.wf = true := by decide

end Sys2Proof.Machine
end

