-- ==== Sys2Proof/Laws/Ops.lean ====
section
/-!
SUPPORT. One lemma per shared operation, saying what it is in terms of the
single-field updates, or what each field is after it, so that later proofs cite
these and unfold nothing.
-/

namespace Sys2Proof.Machine

/-! ### Writing memory -/

@[simp] theorem memWrite_a (addr v : Byte) (s : State) : (memWrite addr v s).a = s.a := rfl
@[simp] theorem memWrite_pc (addr v : Byte) (s : State) : (memWrite addr v s).pc = s.pc := rfl
@[simp] theorem memWrite_cyc (addr v : Byte) (s : State) : (memWrite addr v s).cyc = s.cyc := rfl
@[simp] theorem memWrite_rs (addr v : Byte) (s : State) : (memWrite addr v s).rs = s.rs := rfl
@[simp] theorem memWrite_ph (addr v : Byte) (s : State) : (memWrite addr v s).ph = s.ph := rfl
@[simp] theorem memWrite_stepping (addr v : Byte) (s : State) : (memWrite addr v s).stepping = s.stepping := rfl
@[simp] theorem memWrite_verboseTrace (addr v : Byte) (s : State) : (memWrite addr v s).verboseTrace = s.verboseTrace := rfl
@[simp] theorem memWrite_journalEnabled (addr v : Byte) (s : State) : (memWrite addr v s).journalEnabled = s.journalEnabled := rfl
@[simp] theorem memWrite_breakpointArmed (addr v : Byte) (s : State) : (memWrite addr v s).breakpointArmed = s.breakpointArmed := rfl
@[simp] theorem memWrite_breakpointAddress (addr v : Byte) (s : State) : (memWrite addr v s).breakpointAddress = s.breakpointAddress := rfl
@[simp] theorem memWrite_dumpOnLoad (addr v : Byte) (s : State) : (memWrite addr v s).dumpOnLoad = s.dumpOnLoad := rfl
@[simp] theorem memWrite_dumpPause (addr v : Byte) (s : State) : (memWrite addr v s).dumpPause = s.dumpPause := rfl
@[simp] theorem memWrite_inItems (addr v : Byte) (s : State) : (memWrite addr v s).inItems = s.inItems := rfl
@[simp] theorem memWrite_resumes (addr v : Byte) (s : State) : (memWrite addr v s).resumes = s.resumes := rfl
@[simp] theorem memWrite_lines (addr v : Byte) (s : State) : (memWrite addr v s).lines = s.lines := rfl
@[simp] theorem memWrite_loads (addr v : Byte) (s : State) : (memWrite addr v s).loads = s.loads := rfl
@[simp] theorem memWrite_events (addr v : Byte) (s : State) : (memWrite addr v s).events = s.events := rfl
@[simp] theorem memWrite_mem (addr v : Byte) (s : State) : (memWrite addr v s).mem = s.mem.write addr v := rfl

/-! ### Reading memory after an update of another field -/

@[simp] theorem memRead_setA (addr : Byte) (s : State) (v : Byte) : memRead addr (s.setA v) = memRead addr s := rfl
@[simp] theorem memRead_setPc (addr : Byte) (s : State) (v : PcWord) : memRead addr (s.setPc v) = memRead addr s := rfl
@[simp] theorem memRead_setCyc (addr : Byte) (s : State) (v : Nat) : memRead addr (s.setCyc v) = memRead addr s := rfl
@[simp] theorem memRead_setRs (addr : Byte) (s : State) (v : RunState) : memRead addr (s.setRs v) = memRead addr s := rfl
@[simp] theorem memRead_setPh (addr : Byte) (s : State) (v : Phase) : memRead addr (s.setPh v) = memRead addr s := rfl
@[simp] theorem memRead_setStepping (addr : Byte) (s : State) (v : Bool) : memRead addr (s.setStepping v) = memRead addr s := rfl
@[simp] theorem memRead_setVerboseTrace (addr : Byte) (s : State) (v : Bool) : memRead addr (s.setVerboseTrace v) = memRead addr s := rfl
@[simp] theorem memRead_setDumpPause (addr : Byte) (s : State) (v : Bool) : memRead addr (s.setDumpPause v) = memRead addr s := rfl
@[simp] theorem memRead_setInItems (addr : Byte) (s : State) (v : List InputItem) : memRead addr (s.setInItems v) = memRead addr s := rfl
@[simp] theorem memRead_setResumes (addr : Byte) (s : State) (v : Nat) : memRead addr (s.setResumes v) = memRead addr s := rfl
@[simp] theorem memRead_setLines (addr : Byte) (s : State) (v : List Line) : memRead addr (s.setLines v) = memRead addr s := rfl
@[simp] theorem memRead_setLoads (addr : Byte) (s : State) (v : List LoadMove) : memRead addr (s.setLoads v) = memRead addr s := rfl
@[simp] theorem memRead_emit (addr : Byte) (s : State) (e : Event) : memRead addr (s.emit e) = memRead addr s := rfl

/-! ### Registers and the event list -/

@[simp] theorem State.advance_eq (s : State) : s.advance = s.setPc (s.pc + 2) := rfl
@[simp] theorem State.jumpTo_eq (s : State) (opnd : Byte) :
    s.jumpTo opnd = s.setPc (opnd.setWidth 9) := rfl
@[simp] theorem State.tick_eq (s : State) : s.tick = s.setCyc (s.cyc + 1) := rfl
@[simp] theorem State.halt_eq (s : State) (r : RunState) : s.halt r = s.setRs r := rfl
@[simp] theorem State.narrate_eq (s : State) (pc : PcWord) (m : Mnemonic) (opnd : Byte)
    (w : Option (Byte × Byte)) : s.narrate pc m opnd w = s.emit (.narr pc m opnd s.a w) := rfl
@[simp] theorem State.raiseFatalInput_eq (s : State) :
    s.raiseFatalInput = (s.emit .fatalInputMalformed).setRs .fatalInput := rfl
@[simp] theorem State.applyReset_eq (s : State) (p : RunParams) :
    s.applyReset p = State.resetWith p := rfl

/-! ### Operands -/

@[simp] theorem value_imm (opnd : Byte) (s : State) : value .imm opnd s = opnd := rfl
@[simp] theorem value_dir (opnd : Byte) (s : State) : value .dir opnd s = memRead opnd s := rfl
@[simp] theorem value_ind (opnd : Byte) (s : State) :
    value .ind opnd s = memRead (memRead opnd s) s := rfl
@[simp] theorem target_dir (opnd : Byte) (s : State) : target .dir opnd s = opnd := rfl
@[simp] theorem target_ind (opnd : Byte) (s : State) : target .ind opnd s = memRead opnd s := rfl

/-! ### The input port (R131) -/

theorem inputByte_empty {s : State} (h : s.inItems = []) : inputByte s = .waiting := by
  simp [inputByte, h]

theorem inputByte_byte {s : State} {b : Byte} {rest : List InputItem}
    (h : s.inItems = .byte b :: rest) : inputByte s = .byte b (s.setInItems rest) := by
  simp [inputByte, h]

theorem inputByte_malformed {s : State} {rest : List InputItem}
    (h : s.inItems = .malformed :: rest) : inputByte s = .malformed (s.setInItems rest) := by
  simp [inputByte, h]

/-! ### The window and the fetch (R63, R171) -/

theorem inWindow_iff (pc : PcWord) :
    inWindow pc = true ↔ 0x20 ≤ pc.toNat ∧ pc.toNat ≤ 0xFE := by
  simp only [inWindow, Config.runLo, Config.runHi, Bool.and_eq_true, decide_eq_true_eq,
    BitVec.lt_def]
  show 31 < pc.toNat ∧ pc.toNat < 255 ↔ _
  omega

theorem inWindow_false_iff (pc : PcWord) :
    inWindow pc = false ↔ pc.toNat ≤ 0x1F ∨ 0xFF ≤ pc.toNat := by
  rw [← Bool.not_eq_true, inWindow_iff]
  omega

theorem fetchable_of_inWindow {pc : PcWord} (h : inWindow pc = true) : fetchable pc = true := by
  have := (inWindow_iff pc).1 h
  simp only [fetchable, decide_eq_true_eq]
  omega

/-- The two cells of an instruction in the run window are at the PC and right after
it, and differ. -/
theorem cells_of_inWindow {pc : PcWord} (h : inWindow pc = true) :
    (pc.setWidth 8).toNat = pc.toNat ∧ ((pc + 1).setWidth 8).toNat = pc.toNat + 1 := by
  have := (inWindow_iff pc).1 h
  simp only [BitVec.toNat_setWidth, BitVec.toNat_add]
  constructor
  · omega
  · show (pc.toNat + 1) % 512 % 256 = pc.toNat + 1
    omega

/-- A fetch depends on the PC and the memory only. -/
theorem fetchOpc_congr {s t : State} (hpc : t.pc = s.pc) (hm : t.mem = s.mem) :
    fetchOpc t = fetchOpc s := by
  simp [fetchOpc, memRead, hpc, hm]

theorem fetchOpnd_congr {s t : State} (hpc : t.pc = s.pc) (hm : t.mem = s.mem) :
    fetchOpnd t = fetchOpnd s := by
  simp [fetchOpnd, memRead, hpc, hm]
/-- The target depends on the memory alone (R57). -/
theorem target_congr {s t : State} (hm : t.mem = s.mem) (mode : TargetMode) (opnd : Byte) :
    target mode opnd t = target mode opnd s := by
  cases mode <;> simp [memRead, hm]

/-! ### Placing an instruction -/

theorem State.place_inWindow (s : State) (opc opnd : Byte) :
    inWindow (s.place opc opnd).pc = true := by
  unfold State.place
  dsimp only
  split
  · assumption
  · decide

/-- The two placed bytes are what the next step fetches. -/
theorem State.place_fetch (s : State) (opc opnd : Byte) :
    fetchOpc (s.place opc opnd) = opc ∧ fetchOpnd (s.place opc opnd) = opnd := by
  have c := cells_of_inWindow (s.place_inWindow opc opnd)
  have hm : (s.place opc opnd).mem =
      (s.mem.write ((s.place opc opnd).pc.setWidth 8) opc).write
        (((s.place opc opnd).pc + 1).setWidth 8) opnd := rfl
  have hne : (s.place opc opnd).pc.setWidth 8 ≠ ((s.place opc opnd).pc + 1).setWidth 8 := by
    intro e
    have := congrArg BitVec.toNat e
    omega
  unfold fetchOpc fetchOpnd memRead
  rw [hm]
  exact ⟨by rw [Memory.read_write, if_neg hne, Memory.read_write, if_pos rfl],
    by rw [Memory.read_write, if_pos rfl]⟩

end Sys2Proof.Machine
end

