-- ==== Sys2Proof/Laws/Exec.lean ====
section
/-!
SUPPORT. Everything an instruction can do, said once: `exec` answers a next state,
and that state has one of seven shapes. Proofs about all instructions go through
`exec_shape`.
-/

namespace Sys2Proof.Machine

/-- The seven shapes of what `exec` answers for an instruction of row `m` with operand
`opnd`. -/
inductive ExecShape (m : Mnemonic) (opnd : Byte) (s : State) : State → Prop where
  /-- ADD, SUB, NAND, LOAD: a value into A, the PC on by 2 (R100, R120). -/
  | acc (v : Byte)
      (hf : m.family = .add ∨ m.family = .sub ∨ m.family = .nand ∨ m.family = .load) :
      ExecShape m opnd s (((s.setA v).setPc (s.pc + 2)).emit (.narr s.pc m opnd v none))
  /-- STORE: A into the cell its mode names, the PC on by 2 (R57, R120). -/
  | store (cell : Byte) (hf : m.family = .store)
      (hc : (m = .storeDir ∧ cell = target .dir opnd s) ∨
        (m = .storeInd ∧ cell = target .ind opnd s)) :
      ExecShape m opnd s (((memWrite cell s.a s).setPc (s.pc + 2)).emit
        (.narr s.pc m opnd s.a (some (cell, s.a))))
  /-- IN with no item: the wait (R131). -/
  | inWaits (hf : m.family = .input) (hi : s.inItems = []) :
      ExecShape m opnd s (s.setPh .inWait)
  /-- IN with a byte: the store into the cell its mode names (R57, R132, R133). -/
  | inByte (cell b : Byte) (rest : List InputItem) (hf : m.family = .input)
      (hi : s.inItems = .byte b :: rest)
      (hc : (m = .inDir ∧ cell = target .dir opnd s) ∨
        (m = .inInd ∧ cell = target .ind opnd s)) :
      ExecShape m opnd s ((((memWrite cell b (s.setInItems rest)).setPc (s.pc + 2)).setPh
        .idle).emit (.narr s.pc m opnd s.a (some (cell, b))))
  /-- IN with a malformed item: the abort (R134). -/
  | inMalformed (rest : List InputItem) (hf : m.family = .input)
      (hi : s.inItems = .malformed :: rest) :
      ExecShape m opnd s ((((s.setInItems rest).setPh .idle).emit
        .fatalInputMalformed).setRs .fatalInput)
  /-- OUT: the value, the narration, the halt (R136). -/
  | out (v : Byte) (pc : PcWord) (hf : m.family = .output)
      (hpc : pc = s.pc ∨ pc = s.pc + 2) :
      ExecShape m opnd s ((((s.emit (.out v)).emit (.narr s.pc m opnd s.a none)).setRs
        .haltOut).setPc pc)
  /-- JUMP, BRN, BRZ: a new PC (R153). -/
  | transfer (pc : PcWord) (hf : m.family = .jump ∨ m.family = .brn ∨ m.family = .brz)
      (hpc : pc = opnd.setWidth 9 ∨ pc = s.pc + 2) :
      ExecShape m opnd s ((s.setPc pc).emit (.narr s.pc m opnd s.a none))

theorem inMeaning_shape {m : Mnemonic} (mode : TargetMode) (opnd : Byte) (s : State)
    (hf : m.family = .input) (hm : (m = .inDir ∧ mode = .dir) ∨ (m = .inInd ∧ mode = .ind)) :
    ∃ t, inMeaning m mode opnd s = .next t ∧ ExecShape m opnd s t := by
  unfold inMeaning
  match hi : s.inItems with
  | [] =>
    rw [inputByte_empty hi]
    exact ⟨_, rfl, .inWaits hf hi⟩
  | .byte b :: rest =>
    rw [inputByte_byte hi]
    exact ⟨_, rfl, .inByte (target mode opnd s) b rest hf hi
      (hm.imp (fun h => ⟨h.1, by rw [h.2]⟩) (fun h => ⟨h.1, by rw [h.2]⟩))⟩
  | .malformed :: rest =>
    rw [inputByte_malformed hi]
    exact ⟨_, rfl, .inMalformed rest hf hi⟩

theorem branchMeaning_shape {m : Mnemonic} (taken : Bool) (opnd : Byte) (s : State)
    (hf : m.family = .brn ∨ m.family = .brz) :
    ∃ t, branchMeaning taken m opnd s = .next t ∧ ExecShape m opnd s t := by
  cases taken
  · exact ⟨_, rfl, .transfer _ (.inr hf) (.inr rfl)⟩
  · exact ⟨_, rfl, .transfer _ (.inr hf) (.inl rfl)⟩

/-- Every instruction answers a next state, of one of the seven shapes. -/
theorem exec_shape (i : Instr) (s : State) :
    ∃ t, exec i s = .next t ∧ ExecShape i.mnemonic i.operand s t := by
  cases i with
  | addImm o => exact ⟨_, rfl, .acc _ (by simp [Instr.mnemonic, Mnemonic.family])⟩
  | addDir o => exact ⟨_, rfl, .acc _ (by simp [Instr.mnemonic, Mnemonic.family])⟩
  | addInd o => exact ⟨_, rfl, .acc _ (by simp [Instr.mnemonic, Mnemonic.family])⟩
  | subImm o => exact ⟨_, rfl, .acc _ (by simp [Instr.mnemonic, Mnemonic.family])⟩
  | subDir o => exact ⟨_, rfl, .acc _ (by simp [Instr.mnemonic, Mnemonic.family])⟩
  | subInd o => exact ⟨_, rfl, .acc _ (by simp [Instr.mnemonic, Mnemonic.family])⟩
  | nandImm o => exact ⟨_, rfl, .acc _ (by simp [Instr.mnemonic, Mnemonic.family])⟩
  | nandDir o => exact ⟨_, rfl, .acc _ (by simp [Instr.mnemonic, Mnemonic.family])⟩
  | nandInd o => exact ⟨_, rfl, .acc _ (by simp [Instr.mnemonic, Mnemonic.family])⟩
  | loadImm o => exact ⟨_, rfl, .acc _ (by simp [Instr.mnemonic, Mnemonic.family])⟩
  | loadDir o => exact ⟨_, rfl, .acc _ (by simp [Instr.mnemonic, Mnemonic.family])⟩
  | loadInd o => exact ⟨_, rfl, .acc _ (by simp [Instr.mnemonic, Mnemonic.family])⟩
  | storeDir o => exact ⟨_, rfl, .store _ rfl (.inl ⟨rfl, rfl⟩)⟩
  | storeInd o => exact ⟨_, rfl, .store _ rfl (.inr ⟨rfl, rfl⟩)⟩
  | inDir o => exact inMeaning_shape .dir o s rfl (.inl ⟨rfl, rfl⟩)
  | inInd o => exact inMeaning_shape .ind o s rfl (.inr ⟨rfl, rfl⟩)
  | outImm o => exact ⟨_, rfl, .out _ s.pc rfl (.inl rfl)⟩
  | outDir o => exact ⟨_, rfl, .out _ s.pc rfl (.inl rfl)⟩
  | outInd o => exact ⟨_, rfl, .out _ _ rfl (.inr rfl)⟩
  | jumpDir o => exact ⟨_, rfl, .transfer _ (.inl rfl) (.inl rfl)⟩
  | brnDir o => exact branchMeaning_shape _ o s (.inl rfl)
  | brzDir o => exact branchMeaning_shape _ o s (.inr rfl)

/-- The inversion: what a next state of `exec` looks like. -/
theorem ExecShape.of_exec {i : Instr} {s t : State} (h : exec i s = .next t) :
    ExecShape i.mnemonic i.operand s t := by
  obtain ⟨u, hu, hs⟩ := exec_shape i s
  rw [hu] at h
  cases h
  exact hs

end Sys2Proof.Machine
end

