-- ==== Sys2Proof/Laws/PerInstr.lean ====
section
/-!
SUPPORT. One lemma per instruction: what it is as syntax (30_encoding R80, R82, R84,
R88).
-/

namespace Sys2Proof.Laws.Shape

/-- An instruction is its row of R84 and its operand byte, is two bytes long with the row's
opcode byte first (R80), and its operand is legal (R88). -/
def Statement (i : Instr) : Prop :=
  i.wellFormed = true ∧ Instr.ofMnemonic i.mnemonic i.operand = i ∧
    ∀ opc : OpcodeMap, ∃ b, encodeWith opc i = [opc i.mnemonic, b] ∧ b = i.operand

theorem addImm (opnd : Byte) : Statement (.addImm opnd) := ⟨rfl, rfl, fun _ => ⟨_, rfl, rfl⟩⟩
theorem addDir (opnd : Byte) : Statement (.addDir opnd) := ⟨rfl, rfl, fun _ => ⟨_, rfl, rfl⟩⟩
theorem addInd (opnd : Byte) : Statement (.addInd opnd) := ⟨rfl, rfl, fun _ => ⟨_, rfl, rfl⟩⟩
theorem subImm (opnd : Byte) : Statement (.subImm opnd) := ⟨rfl, rfl, fun _ => ⟨_, rfl, rfl⟩⟩
theorem subDir (opnd : Byte) : Statement (.subDir opnd) := ⟨rfl, rfl, fun _ => ⟨_, rfl, rfl⟩⟩
theorem subInd (opnd : Byte) : Statement (.subInd opnd) := ⟨rfl, rfl, fun _ => ⟨_, rfl, rfl⟩⟩
theorem nandImm (opnd : Byte) : Statement (.nandImm opnd) := ⟨rfl, rfl, fun _ => ⟨_, rfl, rfl⟩⟩
theorem nandDir (opnd : Byte) : Statement (.nandDir opnd) := ⟨rfl, rfl, fun _ => ⟨_, rfl, rfl⟩⟩
theorem nandInd (opnd : Byte) : Statement (.nandInd opnd) := ⟨rfl, rfl, fun _ => ⟨_, rfl, rfl⟩⟩
theorem loadImm (opnd : Byte) : Statement (.loadImm opnd) := ⟨rfl, rfl, fun _ => ⟨_, rfl, rfl⟩⟩
theorem loadDir (opnd : Byte) : Statement (.loadDir opnd) := ⟨rfl, rfl, fun _ => ⟨_, rfl, rfl⟩⟩
theorem loadInd (opnd : Byte) : Statement (.loadInd opnd) := ⟨rfl, rfl, fun _ => ⟨_, rfl, rfl⟩⟩
theorem storeDir (opnd : Byte) : Statement (.storeDir opnd) := ⟨rfl, rfl, fun _ => ⟨_, rfl, rfl⟩⟩
theorem storeInd (opnd : Byte) : Statement (.storeInd opnd) := ⟨rfl, rfl, fun _ => ⟨_, rfl, rfl⟩⟩
theorem inDir (opnd : Byte) : Statement (.inDir opnd) := ⟨rfl, rfl, fun _ => ⟨_, rfl, rfl⟩⟩
theorem inInd (opnd : Byte) : Statement (.inInd opnd) := ⟨rfl, rfl, fun _ => ⟨_, rfl, rfl⟩⟩
theorem outImm (opnd : Byte) : Statement (.outImm opnd) := ⟨rfl, rfl, fun _ => ⟨_, rfl, rfl⟩⟩
theorem outDir (opnd : Byte) : Statement (.outDir opnd) := ⟨rfl, rfl, fun _ => ⟨_, rfl, rfl⟩⟩
theorem outInd (opnd : Byte) : Statement (.outInd opnd) := ⟨rfl, rfl, fun _ => ⟨_, rfl, rfl⟩⟩
theorem jumpDir (opnd : Byte) : Statement (.jumpDir opnd) := ⟨rfl, rfl, fun _ => ⟨_, rfl, rfl⟩⟩
theorem brnDir (opnd : Byte) : Statement (.brnDir opnd) := ⟨rfl, rfl, fun _ => ⟨_, rfl, rfl⟩⟩
theorem brzDir (opnd : Byte) : Statement (.brzDir opnd) := ⟨rfl, rfl, fun _ => ⟨_, rfl, rfl⟩⟩

end Sys2Proof.Laws.Shape
end

