-- ==== Sys2Proof/Laws/RunLoop.lean ====
section
/-!
SUPPORT. Everything a step can do, said once. The debug hooks change a state only
as `HookFrame` says (45_debug R215); a step is `stepWith_cases`, and its engine step
is `engineStep_cases`.
-/

namespace Sys2Proof.Machine

/-- An event of the debug controller or the load phase: not one of the datapath's. -/
def Event.isDebug : Event → Bool
  | .out _ | .narr _ _ _ _ _ | .illegal _ _ | .fatalInputMalformed => false
  | .dump _ _ | .bpHit _ _ _ | .journal _ | .trace _ | .prompt _ _ => true

/-- What the debug hooks of a cycle can change of a state (R215): the two flags of the
stepper, the host's queues of resume events and lines, the counter, the phase, and
events of their own at the end of the list. -/
structure HookFrame (s u : State) : Prop where
  a : u.a = s.a
  pc : u.pc = s.pc
  mem : u.mem = s.mem
  rs : u.rs = s.rs
  journalEnabled : u.journalEnabled = s.journalEnabled
  breakpointArmed : u.breakpointArmed = s.breakpointArmed
  breakpointAddress : u.breakpointAddress = s.breakpointAddress
  dumpOnLoad : u.dumpOnLoad = s.dumpOnLoad
  dumpPause : u.dumpPause = s.dumpPause
  inItems : u.inItems = s.inItems
  loads : u.loads = s.loads
  stepping : u.stepping = true → s.stepping = true
  events : ∃ new, u.events = s.events ++ new ∧ ∀ e ∈ new, Event.isDebug e = true

theorem HookFrame.refl (s : State) : HookFrame s s := by
  constructor <;> first | rfl | exact id | exact ⟨[], by simp⟩

theorem HookFrame.trans {s u w : State} (h : HookFrame s u) (k : HookFrame u w) :
    HookFrame s w := by
  obtain ⟨n1, e1, d1⟩ := h.events
  obtain ⟨n2, e2, d2⟩ := k.events
  exact
    { a := k.a.trans h.a
      pc := k.pc.trans h.pc
      mem := k.mem.trans h.mem
      rs := k.rs.trans h.rs
      journalEnabled := k.journalEnabled.trans h.journalEnabled
      breakpointArmed := k.breakpointArmed.trans h.breakpointArmed
      breakpointAddress := k.breakpointAddress.trans h.breakpointAddress
      dumpOnLoad := k.dumpOnLoad.trans h.dumpOnLoad
      dumpPause := k.dumpPause.trans h.dumpPause
      inItems := k.inItems.trans h.inItems
      loads := k.loads.trans h.loads
      stepping := fun x => h.stepping (k.stepping x)
      events := ⟨n1 ++ n2, by rw [e2, e1, List.append_assoc], by
        intro e he
        rcases List.mem_append.1 he with he | he
        · exact d1 e he
        · exact d2 e he⟩ }

theorem HookFrame.breakpointFires {s u : State} (h : HookFrame s u) :
    breakpointFires u = breakpointFires s := by
  simp [Machine.breakpointFires, h.pc, h.breakpointArmed, h.breakpointAddress]

theorem HookFrame.fetchOpc {s u : State} (h : HookFrame s u) : fetchOpc u = fetchOpc s :=
  fetchOpc_congr h.pc h.mem

theorem HookFrame.fetchOpnd {s u : State} (h : HookFrame s u) : fetchOpnd u = fetchOpnd s :=
  fetchOpnd_congr h.pc h.mem

/-- The hooks do not move the cell a STORE or an IN writes. -/
theorem HookFrame.target {s u : State} (h : HookFrame s u) (mode : TargetMode) (opnd : Byte) :
    target mode opnd u = target mode opnd s :=
  target_congr h.mem mode opnd

/-- An event of the debug controller appended. -/
theorem HookFrame.emit (s : State) {e : Event} (h : Event.isDebug e = true) :
    HookFrame s (s.emit e) := by
  constructor <;> first | rfl | exact id | exact ⟨[e], rfl, by simpa using h⟩

theorem HookFrame.setPh (s : State) (p : Phase) : HookFrame s (s.setPh p) := by
  constructor <;> first | rfl | exact id | exact ⟨[], by simp⟩

theorem HookFrame.setCyc (s : State) (n : Nat) : HookFrame s (s.setCyc n) := by
  constructor <;> first | rfl | exact id | exact ⟨[], by simp⟩

theorem HookFrame.setResumes (s : State) (n : Nat) : HookFrame s (s.setResumes n) := by
  constructor <;> first | rfl | exact id | exact ⟨[], by simp⟩

theorem HookFrame.setLines (s : State) (l : List Line) : HookFrame s (s.setLines l) := by
  constructor <;> first | rfl | exact id | exact ⟨[], by simp⟩

theorem enterBpWait_frame (s : State) : HookFrame s (enterBpWait s) :=
  (HookFrame.emit s rfl).trans (HookFrame.setPh _ _)

theorem enterStepWait_frame (s : State) : HookFrame s (enterStepWait s) :=
  (HookFrame.emit s rfl).trans (HookFrame.setPh _ _)

theorem journalWrite_frame (opc : OpcodeMap) (s : State) : HookFrame s (journalWrite opc s) := by
  unfold journalWrite
  split
  · exact HookFrame.emit s rfl
  · exact HookFrame.refl s

theorem consoleTrace_frame (opc : OpcodeMap) (s : State) : HookFrame s (consoleTrace opc s) := by
  unfold consoleTrace
  split
  · exact HookFrame.emit s rfl
  · exact HookFrame.refl s

/-- The two trace hooks leave the counter, the phase, both flags and the queues alone. -/
theorem traceHooks_keep (opc : OpcodeMap) (s : State) :
    (consoleTrace opc (journalWrite opc s)).cyc = s.cyc ∧
    (consoleTrace opc (journalWrite opc s)).ph = s.ph ∧
    (consoleTrace opc (journalWrite opc s)).stepping = s.stepping ∧
    (consoleTrace opc (journalWrite opc s)).verboseTrace = s.verboseTrace ∧
    (consoleTrace opc (journalWrite opc s)).resumes = s.resumes ∧
    (consoleTrace opc (journalWrite opc s)).lines = s.lines := by
  unfold consoleTrace journalWrite
  split <;> split <;> exact ⟨rfl, rfl, rfl, rfl, rfl, rfl⟩

/-- A command only writes the two flags of the stepper, and never turns stepping on (R210,
R215). -/
theorem applyCommand_frame (c : StepperCommand) (s : State) : HookFrame s (applyCommand c s) := by
  cases c <;> constructor <;>
    first
    | rfl | exact id
    | exact fun x => by simp [applyCommand] at x
    | exact ⟨[], by simp [applyCommand]⟩

@[simp] theorem applyCommand_cyc (c : StepperCommand) (s : State) :
    (applyCommand c s).cyc = s.cyc := by
  cases c <;> rfl

@[simp] theorem applyCommand_lines (c : StepperCommand) (s : State) :
    (applyCommand c s).lines = s.lines := by
  cases c <;> rfl

@[simp] theorem applyCommand_resumes (c : StepperCommand) (s : State) :
    (applyCommand c s).resumes = s.resumes := by
  cases c <;> rfl

/-! ### The engine step -/

theorem engineStep_none {opc : OpcodeMap} {s : State}
    (h : decodeByte opc (fetchOpc s) = none) :
    engineStep opc s = .next ((s.setPh .idle).emit (.illegal s.pc (fetchOpc s))) := by
  simp [engineStep, decodeWith_none h, unrecognizedStep]

theorem engineStep_some {opc : OpcodeMap} {s : State} {m : Mnemonic}
    (h : decodeByte opc (fetchOpc s) = some m) :
    engineStep opc s = exec (Instr.ofMnemonic m (fetchOpnd s)) (s.setPh .idle) := by
  simp [engineStep, decodeWith_some h]

/-- The engine step (R173) answers a next state: the diagnostic of an unrecognized byte,
or one of the shapes of the instruction it decodes. -/
theorem engineStep_cases (opc : OpcodeMap) (s : State) :
    (decodeByte opc (fetchOpc s) = none ∧
      engineStep opc s = .next ((s.setPh .idle).emit (.illegal s.pc (fetchOpc s)))) ∨
    ∃ m t, decodeByte opc (fetchOpc s) = some m ∧ engineStep opc s = .next t ∧
      ExecShape m (fetchOpnd s) (s.setPh .idle) t := by
  cases hd : decodeByte opc (fetchOpc s) with
  | none => exact .inl ⟨rfl, engineStep_none hd⟩
  | some m =>
    obtain ⟨t, ht, hs⟩ := exec_shape (Instr.ofMnemonic m (fetchOpnd s)) (s.setPh .idle)
    simp only [Instr.ofMnemonic_mnemonic, Instr.ofMnemonic_operand] at hs
    exact .inr ⟨m, t, rfl, (engineStep_some hd).trans ht, hs⟩

/-! ### The cycle -/

theorem awaitLine_nil {opc : OpcodeMap} {s : State} (h : s.lines = []) :
    awaitLine opc s = .next s := by
  simp [awaitLine, h]

theorem awaitLine_cons {opc : OpcodeMap} {s : State} {l : Line} {rest : List Line}
    (h : s.lines = l :: rest) :
    awaitLine opc s = engineStep opc (applyCommand (classifyLine l) (s.setLines rest)) := by
  simp [awaitLine, h]

theorem awaitResume_zero {opc : OpcodeMap} {s : State} (h : s.resumes = 0) :
    awaitResume opc s = .next s := by
  simp [awaitResume, h]

theorem awaitResume_succ {opc : OpcodeMap} {s : State} {n : Nat} (h : s.resumes = n + 1) :
    awaitResume opc s = afterBreakpoint opc (s.setResumes n) := by
  simp [awaitResume, h]

theorem afterBreakpoint_off {opc : OpcodeMap} {s : State} (h : s.stepping = false) :
    afterBreakpoint opc s = engineStep opc (consoleTrace opc (journalWrite opc s)) := by
  simp [afterBreakpoint, (traceHooks_keep opc s).2.2.1, h]

theorem afterBreakpoint_on {opc : OpcodeMap} {s : State} (h : s.stepping = true) :
    afterBreakpoint opc s =
      awaitLine opc (enterStepWait (consoleTrace opc (journalWrite opc s))) := by
  simp [afterBreakpoint, (traceHooks_keep opc s).2.2.1, h]

/-- After the breakpoint-check the cycle runs its engine step on a state the hooks have
led to, or waits there with the stepper on and no line. -/
theorem afterBreakpoint_cases (opc : OpcodeMap) (s : State) :
    ∃ u, HookFrame s u ∧ u.cyc = s.cyc ∧
      (s.stepping = false → u.verboseTrace = s.verboseTrace) ∧
      (afterBreakpoint opc s = engineStep opc u ∨
        (afterBreakpoint opc s = .next u ∧ u.ph = .stepWait ∧ u.lines = [] ∧
          u.stepping = true)) := by
  obtain ⟨hc, -, hst, hv, -, hl⟩ := traceHooks_keep opc s
  have hf := (journalWrite_frame opc s).trans (consoleTrace_frame opc (journalWrite opc s))
  cases hs : s.stepping with
  | false => exact ⟨_, hf, hc, fun _ => hv, .inl (afterBreakpoint_off hs)⟩
  | true =>
    have hf := hf.trans (enterStepWait_frame _)
    cases hls : s.lines with
    | nil =>
      exact ⟨_, hf, hc, nofun, .inr ⟨(afterBreakpoint_on hs).trans (awaitLine_nil (hl.trans hls)),
        rfl, hl.trans hls, hst.trans hs⟩⟩
    | cons l rest =>
      exact ⟨_, (hf.trans (HookFrame.setLines _ rest)).trans (applyCommand_frame (classifyLine l) _),
        (applyCommand_cyc _ _).trans hc, nofun,
        .inl ((afterBreakpoint_on hs).trans (awaitLine_cons (hl.trans hls)))⟩

/-- Everything a step can do, by the state it starts in. -/
inductive StepEnd (opc : OpcodeMap) (s : State) : Host.Outcome State Fault Refusal → Prop where
  | aborted (hrs : s.rs = .fatalInput) : StepEnd opc s (.fault .inputMalformed)
  | ended (hrs : s.rs = .haltOut ∨ s.rs = .stopRange) : StepEnd opc s (.next s)
  | loads (hrs : s.rs = .run) (hph : s.ph = .load) : StepEnd opc s (.next (loadStep s))
  | stops (hrs : s.rs = .run) (hph : s.ph = .idle) (hw : inWindow s.pc = false) :
      StepEnd opc s (.next (s.setRs .stopRange))
  | lost (hrs : s.rs = .run) (hph : s.ph = .bpWait ∨ s.ph = .stepWait ∨ s.ph = .inWait)
      (hw : fetchable s.pc = false) : StepEnd opc s (.fault .addressOutOfRange)
  /-- The hooks lead to `u`, and the engine step runs there. -/
  | engine (u : State) (hrs : s.rs = .run) (hph : s.ph ≠ .load) (hw : fetchable s.pc = true)
      (hi : s.ph = .idle → inWindow s.pc = true) (hf : HookFrame s u)
      (hc : u.cyc = if s.ph = .idle then s.cyc + 1 else s.cyc)
      (hv : s.stepping = false → s.ph ≠ .stepWait → u.verboseTrace = s.verboseTrace) :
      StepEnd opc s (engineStep opc u)
  /-- The hooks lead to `u`, and the cycle waits there for the host. -/
  | waits (u : State) (hrs : s.rs = .run) (hph : s.ph ≠ .load) (hw : fetchable s.pc = true)
      (hi : s.ph = .idle → inWindow s.pc = true) (hf : HookFrame s u)
      (hc : u.cyc = if s.ph = .idle then s.cyc + 1 else s.cyc)
      (hv : s.stepping = false → s.ph ≠ .stepWait → u.verboseTrace = s.verboseTrace)
      (hu : (u.ph = .bpWait ∧ u.resumes = 0 ∧ (breakpointFires s = true ∨ u = s)) ∨
        (u.ph = .stepWait ∧ u.lines = [] ∧ (u.stepping = true ∨ u = s))) :
      StepEnd opc s (.next u)

theorem awaitResume_end (opc : OpcodeMap) {s : State} (hph : s.ph = .bpWait) :
    ∃ u, HookFrame s u ∧ u.cyc = s.cyc ∧
      (s.stepping = false → u.verboseTrace = s.verboseTrace) ∧
      (awaitResume opc s = engineStep opc u ∨
        (awaitResume opc s = .next u ∧
          ((u.ph = .bpWait ∧ u.resumes = 0 ∧ u = s) ∨
            (u.ph = .stepWait ∧ u.lines = [] ∧ u.stepping = true)))) := by
  cases hr : s.resumes with
  | zero =>
    exact ⟨s, .refl s, rfl, fun _ => rfl, .inr ⟨awaitResume_zero hr, .inl ⟨hph, hr, rfl⟩⟩⟩
  | succ n =>
    obtain ⟨u, hf, hc, hv, he⟩ := afterBreakpoint_cases opc (s.setResumes n)
    refine ⟨u, (HookFrame.setResumes s n).trans hf, hc, hv, ?_⟩
    rw [awaitResume_succ hr]
    rcases he with he | ⟨he, h⟩
    · exact .inl he
    · exact .inr ⟨he, .inr h⟩

/-- The inversion of the step: one of the cases of `StepEnd`. -/
theorem stepWith_cases (opc : OpcodeMap) (s : State) : StepEnd opc s (stepWith opc s) := by
  unfold stepWith
  cases hrs : s.rs with
  | fatalInput => exact .aborted hrs
  | haltOut => exact .ended (.inl hrs)
  | stopRange => exact .ended (.inr hrs)
  | run =>
    dsimp only
    cases hph : s.ph with
    | load => exact .loads hrs hph
    | idle =>
      dsimp only
      cases hw : inWindow s.pc with
      | false => exact .stops hrs hph hw
      | true =>
        have hfw := fetchable_of_inWindow hw
        have hne : s.ph ≠ .load := by simp [hph]
        simp only [if_true]
        unfold beginCycle
        cases hb : breakpointFires s.tick with
        | true =>
          have hf := (HookFrame.setCyc s (s.cyc + 1)).trans (enterBpWait_frame _)
          have hbs : breakpointFires s = true := hb
          obtain ⟨u, hu, hc, hv, he⟩ :=
            awaitResume_end opc (s := enterBpWait s.tick) rfl
          have hfu := hf.trans hu
          simp only [if_true]
          rcases he with he | ⟨he, h⟩
          · rw [he]
            exact .engine u hrs hne hfw (fun _ => hw) hfu (by rw [hc, if_pos hph]; rfl)
              (fun x _ => hv x)
          · rw [he]
            refine .waits u hrs hne hfw (fun _ => hw) hfu (by rw [hc, if_pos hph]; rfl)
              (fun x _ => hv x) ?_
            rcases h with ⟨h1, h2, -⟩ | ⟨h1, h2, h3⟩
            · exact .inl ⟨h1, h2, .inl hbs⟩
            · exact .inr ⟨h1, h2, .inl h3⟩
        | false =>
          obtain ⟨u, hu, hc, hv, he⟩ := afterBreakpoint_cases opc s.tick
          have hfu := (HookFrame.setCyc s (s.cyc + 1)).trans hu
          simp only [Bool.false_eq_true, if_false]
          rcases he with he | ⟨he, h1, h2, h3⟩
          · rw [he]
            exact .engine u hrs hne hfw (fun _ => hw) hfu (by rw [hc, if_pos hph]; rfl)
              (fun x _ => hv x)
          · rw [he]
            exact .waits u hrs hne hfw (fun _ => hw) hfu (by rw [hc, if_pos hph]; rfl)
              (fun x _ => hv x) (.inr ⟨h1, h2, .inl h3⟩)
    | bpWait =>
      dsimp only [ifFetchable]
      cases hw : fetchable s.pc with
      | false => exact .lost hrs (.inl hph) hw
      | true =>
        have hni : s.ph ≠ .idle := by simp [hph]
        obtain ⟨u, hu, hc, hv, he⟩ := awaitResume_end opc hph
        have hc : u.cyc = if s.ph = .idle then s.cyc + 1 else s.cyc := by rw [if_neg hni, hc]
        simp only [if_true]
        rcases he with he | ⟨he, h⟩
        · rw [he]
          exact .engine u hrs (by simp [hph]) hw (fun x => absurd x hni) hu hc
            (fun x _ => hv x)
        · rw [he]
          refine .waits u hrs (by simp [hph]) hw (fun x => absurd x hni) hu hc
            (fun x _ => hv x) ?_
          rcases h with ⟨h1, h2, h3⟩ | ⟨h1, h2, h3⟩
          · exact .inl ⟨h1, h2, .inr h3⟩
          · exact .inr ⟨h1, h2, .inl h3⟩
    | stepWait =>
      dsimp only [ifFetchable]
      cases hw : fetchable s.pc with
      | false => exact .lost hrs (.inr (.inl hph)) hw
      | true =>
        have hni : s.ph ≠ .idle := by simp [hph]
        simp only [if_true]
        cases hl : s.lines with
        | nil =>
          rw [awaitLine_nil hl]
          exact .waits s hrs (by simp [hph]) hw (fun x => absurd x hni) (.refl s)
            (by rw [if_neg hni]) (fun _ _ => rfl) (.inr ⟨hph, hl, .inr rfl⟩)
        | cons l rest =>
          rw [awaitLine_cons hl]
          exact .engine _ hrs (by simp [hph]) hw (fun x => absurd x hni)
            ((HookFrame.setLines s rest).trans (applyCommand_frame _ _))
            (by rw [if_neg hni]; simp) (fun _ x => absurd hph x)
    | inWait =>
      dsimp only [ifFetchable]
      cases hw : fetchable s.pc with
      | false => exact .lost hrs (.inr (.inr hph)) hw
      | true =>
        have hni : s.ph ≠ .idle := by simp [hph]
        exact .engine s hrs (by simp [hph]) hw (fun x => absurd x hni) (.refl s)
          (by rw [if_neg hni]) (fun _ _ => rfl)

/-! ### The step, case by case -/

theorem stepWith_cycle (opc : OpcodeMap) {s : State} (hrs : s.rs = .run) (hph : s.ph = .idle)
    (hw : inWindow s.pc = true) : stepWith opc s = beginCycle opc s := by
  simp [stepWith, hrs, hph, hw]

theorem stepWith_outside (opc : OpcodeMap) {s : State} (hrs : s.rs = .run)
    (hph : s.ph = .idle) (hw : inWindow s.pc = false) :
    stepWith opc s = .next (s.setRs .stopRange) := by
  simp [stepWith, hrs, hph, hw]

theorem stepWith_load (opc : OpcodeMap) {s : State} (hrs : s.rs = .run) (hph : s.ph = .load) :
    stepWith opc s = .next (loadStep s) := by
  simp [stepWith, hrs, hph]

theorem stepWith_bpWait (opc : OpcodeMap) {s : State} (hrs : s.rs = .run)
    (hph : s.ph = .bpWait) (hw : fetchable s.pc = true) :
    stepWith opc s = awaitResume opc s := by
  simp [stepWith, hrs, hph, ifFetchable, hw]

theorem stepWith_stepWait (opc : OpcodeMap) {s : State} (hrs : s.rs = .run)
    (hph : s.ph = .stepWait) (hw : fetchable s.pc = true) :
    stepWith opc s = awaitLine opc s := by
  simp [stepWith, hrs, hph, ifFetchable, hw]

theorem stepWith_inWait (opc : OpcodeMap) {s : State} (hrs : s.rs = .run)
    (hph : s.ph = .inWait) (hw : fetchable s.pc = true) :
    stepWith opc s = engineStep opc s := by
  simp [stepWith, hrs, hph, ifFetchable, hw]

theorem beginCycle_fires (opc : OpcodeMap) {s : State} (h : breakpointFires s = true) :
    beginCycle opc s = awaitResume opc (enterBpWait s.tick) := by
  unfold beginCycle
  rw [if_pos (show breakpointFires s.tick = true from h)]

theorem beginCycle_passes (opc : OpcodeMap) {s : State} (h : breakpointFires s = false) :
    beginCycle opc s = afterBreakpoint opc s.tick := by
  unfold beginCycle
  rw [if_neg]
  rw [show breakpointFires s.tick = false from h]
  exact Bool.false_ne_true

/-- What every cycle in progress has in common, between the state `s` it starts in and the
state `u` its hooks lead to. -/
structure InCycle (s u : State) : Prop where
  run : s.rs = .run
  notLoad : s.ph ≠ .load
  fetch : fetchable s.pc = true
  window : s.ph = .idle → inWindow s.pc = true
  frame : HookFrame s u
  cyc : u.cyc = if s.ph = .idle then s.cyc + 1 else s.cyc
  trace : s.stepping = false → s.ph ≠ .stepWait → u.verboseTrace = s.verboseTrace

/-- Everything a next state `t` of a step from `s` can be. -/
inductive StepNext (opc : OpcodeMap) (s t : State) : Prop where
  | ended (hrs : s.rs = .haltOut ∨ s.rs = .stopRange) (ht : t = s)
  | loads (hrs : s.rs = .run) (hph : s.ph = .load) (ht : t = loadStep s)
  | stops (hrs : s.rs = .run) (hph : s.ph = .idle) (hw : inWindow s.pc = false)
      (ht : t = s.setRs .stopRange)
  | waits (hu : InCycle s t)
      (hp : (t.ph = .bpWait ∧ t.resumes = 0 ∧ (breakpointFires s = true ∨ t = s)) ∨
        (t.ph = .stepWait ∧ t.lines = [] ∧ (t.stepping = true ∨ t = s)))
  | illegal (u : State) (hu : InCycle s u) (hd : decodeByte opc (fetchOpc s) = none)
      (ht : t = (u.setPh .idle).emit (.illegal s.pc (fetchOpc s)))
  | instr (u : State) (m : Mnemonic) (hu : InCycle s u)
      (hd : decodeByte opc (fetchOpc s) = some m)
      (hs : ExecShape m (fetchOpnd s) (u.setPh .idle) t)

/-- The inversion of a step that answers a next state. -/
theorem StepNext.of_step {opc : OpcodeMap} {s t : State} (h : stepWith opc s = .next t) :
    StepNext opc s t := by
  have hc := stepWith_cases opc s
  generalize stepWith opc s = o at hc h
  cases hc with
  | aborted hrs => cases h
  | ended hrs => cases h; exact .ended hrs rfl
  | loads hrs hph => cases h; exact .loads hrs hph rfl
  | stops hrs hph hw => cases h; exact .stops hrs hph hw rfl
  | lost hrs hph hw => cases h
  | waits u hrs hph hw hi hf hc hv hu => cases h; exact .waits ⟨hrs, hph, hw, hi, hf, hc, hv⟩ hu
  | engine u hrs hph hw hi hf hc hv =>
    have hu : InCycle s u := ⟨hrs, hph, hw, hi, hf, hc, hv⟩
    rcases engineStep_cases opc u with ⟨hd, he⟩ | ⟨m, t', hd, he, hs⟩
    · rw [he] at h
      cases h
      exact .illegal u hu (hf.fetchOpc ▸ hd) (by rw [hf.fetchOpc, hf.pc])
    · rw [he] at h
      cases h
      exact .instr u m hu (hf.fetchOpc ▸ hd) (hf.fetchOpnd ▸ hs)

/-- With the host's answers there, a cycle runs its engine step and has consumed at most one
resume event and one line (R181). -/
theorem stepWith_answered (opc : OpcodeMap) {s : State} (hrs : s.rs = .run)
    (hph : s.ph = .idle) (hw : inWindow s.pc = true)
    (hb : breakpointFires s = true → 0 < s.resumes) (hl : s.stepping = true → s.lines ≠ []) :
    ∃ u, InCycle s u ∧ stepWith opc s = engineStep opc u ∧ s.resumes ≤ u.resumes + 1 ∧
      s.lines.length ≤ u.lines.length + 1 := by
  have after : ∀ r : State, r.stepping = s.stepping → r.lines = s.lines →
      ∃ u, HookFrame r u ∧ u.cyc = r.cyc ∧
        (r.stepping = false → u.verboseTrace = r.verboseTrace) ∧
        afterBreakpoint opc r = engineStep opc u ∧ u.resumes = r.resumes ∧
        r.lines.length ≤ u.lines.length + 1 := by
    intro r hrst hrl
    obtain ⟨hc, -, hst, hv, hre, hli⟩ := traceHooks_keep opc r
    have hf := (journalWrite_frame opc r).trans (consoleTrace_frame opc (journalWrite opc r))
    cases hs : r.stepping with
    | false =>
      exact ⟨_, hf, hc, fun _ => hv, afterBreakpoint_off hs, hre, by rw [hli]; omega⟩
    | true =>
      cases hls : r.lines with
      | nil => exact absurd (hrl.symm.trans hls) (hl (hrst.symm.trans hs))
      | cons l rest =>
        refine ⟨_, ((hf.trans (enterStepWait_frame _)).trans (HookFrame.setLines _ rest)).trans
          (applyCommand_frame (classifyLine l) _), (applyCommand_cyc _ _).trans hc, nofun,
          (afterBreakpoint_on hs).trans (awaitLine_cons (hli.trans hls)), ?_, ?_⟩
        · rw [applyCommand_resumes]
          exact hre
        · rw [applyCommand_lines]
          simp
  have cycle : ∀ u, HookFrame s u → u.cyc = s.cyc + 1 →
      (s.stepping = false → u.verboseTrace = s.verboseTrace) → InCycle s u :=
    fun u hf hc hv => ⟨hrs, by simp [hph], fetchable_of_inWindow hw, fun _ => hw, hf,
      by rw [if_pos hph, hc], fun x _ => hv x⟩
  rw [stepWith_cycle opc hrs hph hw]
  cases hbf : breakpointFires s with
  | true =>
    obtain ⟨n, hn⟩ : ∃ n, s.resumes = n + 1 :=
      ⟨s.resumes - 1, by have := hb hbf; omega⟩
    obtain ⟨u, hf, hc, hv, he, hr, hlen⟩ := after ((enterBpWait s.tick).setResumes n) rfl rfl
    refine ⟨u, cycle u ((((HookFrame.setCyc s (s.cyc + 1)).trans (enterBpWait_frame _)).trans
      (HookFrame.setResumes _ n)).trans hf) hc hv, ?_, ?_, hlen⟩
    · rw [beginCycle_fires opc hbf, awaitResume_succ (n := n) (by exact hn), he]
    · rw [hr, hn]
      exact le_refl (n + 1)
  | false =>
    obtain ⟨u, hf, hc, hv, he, hr, hlen⟩ := after s.tick rfl rfl
    refine ⟨u, cycle u ((HookFrame.setCyc s (s.cyc + 1)).trans hf) hc hv, ?_, ?_, hlen⟩
    · rw [beginCycle_passes opc hbf, he]
    · rw [hr]
      exact Nat.le_succ s.resumes

/-! ### The load phase -/

/-- What one move of the load phase can be (R271, R220). -/
inductive LoadShape (s : State) : State → Prop where
  | waits : LoadShape s s
  | line (l : Line) (rest : List Line) (hd : s.dumpPause = true) (hl : s.lines = l :: rest) :
      LoadShape s ((applyCommand (classifyLine l) (s.setLines rest)).setDumpPause false)
  | write (addr v : Byte) (rest : List LoadMove) (hd : s.dumpPause = false)
      (hl : s.loads = .write addr v :: rest) :
      LoadShape s (dumpCell addr v (memWrite addr v (s.setLoads rest)))
  | run (rest : List LoadMove) (hd : s.dumpPause = false) (hl : s.loads = .run :: rest) :
      LoadShape s ((s.setLoads rest).setPh .idle)

theorem loadStep_shape (s : State) : LoadShape s (loadStep s) := by
  unfold loadStep
  cases hd : s.dumpPause with
  | true =>
    simp only [if_true]
    cases hl : s.lines with
    | nil => exact .waits
    | cons l rest => exact .line l rest hd hl
  | false =>
    simp only [Bool.false_eq_true, if_false]
    match hl : s.loads with
    | [] => exact .waits
    | .write addr v :: rest => exact .write addr v rest hd hl
    | .run :: rest => exact .run rest hd hl

end Sys2Proof.Machine
end

