-- ==== Sys2Proof/Laws/Run.lean ====
section
/-!
SUPPORT. Runs of many steps: one step at a time, and the one induction over a run,
so that a claim about runs is a claim about one step.
-/

namespace Sys2Proof.Machine

@[simp] theorem runWith_zero (opc : OpcodeMap) (s : State) : runWith opc 0 s = .next s := rfl

theorem core_run_next (M : Host.Core) {s t : M.State} (h : M.step s = .next t) (n : Nat) :
    M.run (n + 1) s = M.run n t := by
  simp [Host.Core.run, h]

theorem core_run_fault (M : Host.Core) {s : M.State} {f : M.Fault} (h : M.step s = .fault f)
    (n : Nat) : M.run (n + 1) s = .fault f := by
  simp [Host.Core.run, h]

theorem core_run_refused (M : Host.Core) {s : M.State} {r : M.Refusal}
    (h : M.step s = .refused r) (n : Nat) : M.run (n + 1) s = .refused r := by
  simp [Host.Core.run, h]

theorem runWith_succ_next {opc : OpcodeMap} {s t : State} (h : stepWith opc s = .next t)
    (n : Nat) : runWith opc (n + 1) s = runWith opc n t :=
  core_run_next (coreWith opc) h n

theorem runWith_succ_fault {opc : OpcodeMap} {s : State} {f : Fault}
    (h : stepWith opc s = .fault f) (n : Nat) : runWith opc (n + 1) s = .fault f :=
  core_run_fault (coreWith opc) h n

theorem runWith_succ_refused {opc : OpcodeMap} {s : State} {r : Refusal}
    (h : stepWith opc s = .refused r) (n : Nat) : runWith opc (n + 1) s = .refused r :=
  core_run_refused (coreWith opc) h n

/-- The first step of a run that answers a next state. -/
theorem runWith_succ_inv {opc : OpcodeMap} {n : Nat} {s t : State}
    (h : runWith opc (n + 1) s = .next t) :
    ∃ u, stepWith opc s = .next u ∧ runWith opc n u = .next t := by
  cases hs : stepWith opc s with
  | next u => exact ⟨u, rfl, (runWith_succ_next hs n).symm.trans h⟩
  | fault f => rw [runWith_succ_fault hs] at h; cases h
  | refused r => rw [runWith_succ_refused hs] at h; cases h

/-- A relation between the states of a run that is reflexive, and that every step of the
machine extends, holds between its ends. -/
theorem runWith_induction {opc : OpcodeMap} {R : State → State → Prop} (hr : ∀ s, R s s)
    (hstep : ∀ s u t, stepWith opc s = .next u → R u t → R s t) :
    ∀ (n : Nat) (s t : State), runWith opc n s = .next t → R s t
  | 0, s, t, h => by
    cases h
    exact hr s
  | n + 1, s, t, h => by
    obtain ⟨u, hs, hn⟩ := runWith_succ_inv h
    exact hstep s u t hs (runWith_induction hr hstep n u t hn)

/-- The default machine is the machine with the default opcode table. -/
theorem coreWith_default : coreWith Config.opc = Sys2Proof.core := rfl

end Sys2Proof.Machine
end

