-- ==== Sys2Proof/Laws/Safety.lean ====
section
/-!
SUPPORT. The classes of events claims are stated in, constructor by constructor, and
the events of the debug hooks, which belong to none of the datapath's classes.
-/

namespace Sys2Proof.Machine

@[simp] theorem Event.isOut_dump (x y : Byte) :
    Event.isOut (Event.dump x y) = false := rfl
@[simp] theorem Event.isOut_bpHit (n : Nat) (p : PcWord) (x : Byte) :
    Event.isOut (Event.bpHit n p x) = false := rfl
@[simp] theorem Event.isOut_journal (r : Record) :
    Event.isOut (Event.journal r) = false := rfl
@[simp] theorem Event.isOut_trace (r : Record) :
    Event.isOut (Event.trace r) = false := rfl
@[simp] theorem Event.isOut_prompt (p : PcWord) (x : Byte) :
    Event.isOut (Event.prompt p x) = false := rfl
@[simp] theorem Event.isOut_out (v : Byte) :
    Event.isOut (Event.out v) = true := rfl
@[simp] theorem Event.isOut_narr (p : PcWord) (m : Mnemonic) (x y : Byte) (w : Option (Byte × Byte)) :
    Event.isOut (Event.narr p m x y w) = false := rfl
@[simp] theorem Event.isOut_illegal (p : PcWord) (x : Byte) :
    Event.isOut (Event.illegal p x) = false := rfl
@[simp] theorem Event.isOut_fatalInputMalformed :
    Event.isOut Event.fatalInputMalformed = false := rfl

@[simp] theorem Event.isFatal_dump (x y : Byte) :
    Event.isFatal (Event.dump x y) = false := rfl
@[simp] theorem Event.isFatal_bpHit (n : Nat) (p : PcWord) (x : Byte) :
    Event.isFatal (Event.bpHit n p x) = false := rfl
@[simp] theorem Event.isFatal_journal (r : Record) :
    Event.isFatal (Event.journal r) = false := rfl
@[simp] theorem Event.isFatal_trace (r : Record) :
    Event.isFatal (Event.trace r) = false := rfl
@[simp] theorem Event.isFatal_prompt (p : PcWord) (x : Byte) :
    Event.isFatal (Event.prompt p x) = false := rfl
@[simp] theorem Event.isFatal_out (v : Byte) :
    Event.isFatal (Event.out v) = false := rfl
@[simp] theorem Event.isFatal_narr (p : PcWord) (m : Mnemonic) (x y : Byte) (w : Option (Byte × Byte)) :
    Event.isFatal (Event.narr p m x y w) = false := rfl
@[simp] theorem Event.isFatal_illegal (p : PcWord) (x : Byte) :
    Event.isFatal (Event.illegal p x) = false := rfl
@[simp] theorem Event.isFatal_fatalInputMalformed :
    Event.isFatal Event.fatalInputMalformed = true := rfl

@[simp] theorem Event.isDatapath_dump (x y : Byte) :
    Event.isDatapath (Event.dump x y) = false := rfl
@[simp] theorem Event.isDatapath_bpHit (n : Nat) (p : PcWord) (x : Byte) :
    Event.isDatapath (Event.bpHit n p x) = false := rfl
@[simp] theorem Event.isDatapath_journal (r : Record) :
    Event.isDatapath (Event.journal r) = false := rfl
@[simp] theorem Event.isDatapath_trace (r : Record) :
    Event.isDatapath (Event.trace r) = false := rfl
@[simp] theorem Event.isDatapath_prompt (p : PcWord) (x : Byte) :
    Event.isDatapath (Event.prompt p x) = false := rfl
@[simp] theorem Event.isDatapath_out (v : Byte) :
    Event.isDatapath (Event.out v) = true := rfl
@[simp] theorem Event.isDatapath_narr (p : PcWord) (m : Mnemonic) (x y : Byte) (w : Option (Byte × Byte)) :
    Event.isDatapath (Event.narr p m x y w) = true := rfl
@[simp] theorem Event.isDatapath_illegal (p : PcWord) (x : Byte) :
    Event.isDatapath (Event.illegal p x) = true := rfl
@[simp] theorem Event.isDatapath_fatalInputMalformed :
    Event.isDatapath Event.fatalInputMalformed = true := rfl

@[simp] theorem Event.isDebug_dump (x y : Byte) :
    Event.isDebug (Event.dump x y) = true := rfl
@[simp] theorem Event.isDebug_bpHit (n : Nat) (p : PcWord) (x : Byte) :
    Event.isDebug (Event.bpHit n p x) = true := rfl
@[simp] theorem Event.isDebug_journal (r : Record) :
    Event.isDebug (Event.journal r) = true := rfl
@[simp] theorem Event.isDebug_trace (r : Record) :
    Event.isDebug (Event.trace r) = true := rfl
@[simp] theorem Event.isDebug_prompt (p : PcWord) (x : Byte) :
    Event.isDebug (Event.prompt p x) = true := rfl
@[simp] theorem Event.isDebug_out (v : Byte) :
    Event.isDebug (Event.out v) = false := rfl
@[simp] theorem Event.isDebug_narr (p : PcWord) (m : Mnemonic) (x y : Byte) (w : Option (Byte × Byte)) :
    Event.isDebug (Event.narr p m x y w) = false := rfl
@[simp] theorem Event.isDebug_illegal (p : PcWord) (x : Byte) :
    Event.isDebug (Event.illegal p x) = false := rfl
@[simp] theorem Event.isDebug_fatalInputMalformed :
    Event.isDebug Event.fatalInputMalformed = false := rfl

/-- An event of the debug controller is no OUT, no FATAL and none of the datapath's. -/
theorem Event.isDebug_excludes {e : Event} (h : Event.isDebug e = true) :
    e.isOut = false ∧ e.isFatal = false ∧ e.isDatapath = false := by
  cases e <;> simp at h ⊢

/-- Appending events of the debug controller leaves the counts of OUT and FATAL events and
the datapath's events as they were. -/
theorem Event.debug_append {l new : List Event} (h : ∀ e ∈ new, Event.isDebug e = true) :
    (l ++ new).countP Event.isOut = l.countP Event.isOut ∧
    (l ++ new).countP Event.isFatal = l.countP Event.isFatal ∧
    (l ++ new).filter Event.isDatapath = l.filter Event.isDatapath := by
  have h1 : new.countP Event.isOut = 0 :=
    List.countP_eq_zero.2 (fun e he => by simp [(Event.isDebug_excludes (h e he)).1])
  have h2 : new.countP Event.isFatal = 0 :=
    List.countP_eq_zero.2 (fun e he => by simp [(Event.isDebug_excludes (h e he)).2.1])
  have h3 : new.filter Event.isDatapath = [] :=
    List.filter_eq_nil_iff.2 (fun e he => by simp [(Event.isDebug_excludes (h e he)).2.2])
  rw [List.countP_append, List.countP_append, List.filter_append, h1, h2, h3]
  simp

/-- The hooks of a cycle add nothing to the datapath's events, and no OUT and no FATAL. -/
theorem HookFrame.eventCounts {s u : State} (h : HookFrame s u) :
    u.events.countP Event.isOut = s.events.countP Event.isOut ∧
    u.events.countP Event.isFatal = s.events.countP Event.isFatal ∧
    datapathEvents u = datapathEvents s := by
  obtain ⟨new, hnew, hd⟩ := h.events
  unfold datapathEvents
  rw [hnew]
  exact Event.debug_append hd

@[simp] theorem datapathEvents_setA (s : State) (v : Byte) :
    datapathEvents (s.setA v) = datapathEvents s := rfl
@[simp] theorem datapathEvents_setPc (s : State) (v : PcWord) :
    datapathEvents (s.setPc v) = datapathEvents s := rfl
@[simp] theorem datapathEvents_setMem (s : State) (v : Memory) :
    datapathEvents (s.setMem v) = datapathEvents s := rfl
@[simp] theorem datapathEvents_setCyc (s : State) (v : Nat) :
    datapathEvents (s.setCyc v) = datapathEvents s := rfl
@[simp] theorem datapathEvents_setRs (s : State) (v : RunState) :
    datapathEvents (s.setRs v) = datapathEvents s := rfl
@[simp] theorem datapathEvents_setPh (s : State) (v : Phase) :
    datapathEvents (s.setPh v) = datapathEvents s := rfl
@[simp] theorem datapathEvents_setStepping (s : State) (v : Bool) :
    datapathEvents (s.setStepping v) = datapathEvents s := rfl
@[simp] theorem datapathEvents_setVerboseTrace (s : State) (v : Bool) :
    datapathEvents (s.setVerboseTrace v) = datapathEvents s := rfl
@[simp] theorem datapathEvents_setDumpPause (s : State) (v : Bool) :
    datapathEvents (s.setDumpPause v) = datapathEvents s := rfl
@[simp] theorem datapathEvents_setInItems (s : State) (v : List InputItem) :
    datapathEvents (s.setInItems v) = datapathEvents s := rfl
@[simp] theorem datapathEvents_setResumes (s : State) (v : Nat) :
    datapathEvents (s.setResumes v) = datapathEvents s := rfl
@[simp] theorem datapathEvents_setLines (s : State) (v : List Line) :
    datapathEvents (s.setLines v) = datapathEvents s := rfl
@[simp] theorem datapathEvents_setLoads (s : State) (v : List LoadMove) :
    datapathEvents (s.setLoads v) = datapathEvents s := rfl
@[simp] theorem datapathEvents_memWrite (addr v : Byte) (s : State) :
    datapathEvents (memWrite addr v s) = datapathEvents s := rfl

@[simp] theorem datapathEvents_emit (s : State) (e : Event) :
    datapathEvents (s.emit e) =
      datapathEvents s ++ (if e.isDatapath then [e] else []) := by
  cases h : e.isDatapath <;> simp [datapathEvents, h]

/-- The fields a move of the load phase leaves alone (R271, R220). -/
theorem loadStep_keeps (s : State) :
    (loadStep s).a = s.a ∧ (loadStep s).pc = s.pc ∧ (loadStep s).cyc = s.cyc ∧
    (loadStep s).rs = s.rs ∧ (loadStep s).journalEnabled = s.journalEnabled ∧
    (loadStep s).breakpointArmed = s.breakpointArmed ∧
    (loadStep s).breakpointAddress = s.breakpointAddress ∧
    (loadStep s).dumpOnLoad = s.dumpOnLoad ∧ (loadStep s).inItems = s.inItems ∧
    ∃ new, (loadStep s).events = s.events ++ new ∧ ∀ e ∈ new, Event.isDebug e = true := by
  have h := loadStep_shape s
  generalize loadStep s = t at h
  cases h with
  | waits => simp
  | line l rest hd hl => cases classifyLine l <;> simp [applyCommand]
  | write addr v rest hd hl => unfold dumpCell; split <;> simp
  | run rest hd hl => simp

/-- The phases a move of the load phase can leave. -/
theorem loadStep_phase {s : State} (h : s.ph = .load) :
    (loadStep s).ph = .load ∨ (loadStep s).ph = .idle := by
  have hs := loadStep_shape s
  generalize loadStep s = t at hs
  cases hs with
  | waits => exact .inl h
  | line l rest hd hl => cases classifyLine l <;> exact .inl h
  | write addr v rest hd hl => unfold dumpCell; split <;> exact .inl h
  | run rest hd hl => exact .inr rfl

end Sys2Proof.Machine
end

