-- ==== Sys2Proof/Tests/Slice0.lean ====
section
/-!
SUPPORT. Tests of the model. The expected values of the step tests come from
95_test_vectors.md and 30_encoding R85. The theorems named wit_<Obligation> show
a concrete state and operands that meet the hypotheses of that obligation.
-/

namespace Sys2Proof.Tests

open Sys2Proof Sys2Proof.Machine

/-! ### Decoding: words written out from the table of R85 -/

theorem test_decode_alu :
    decode [0x20, 0x05] = .ok (.addImm 0x05, []) ∧ decode [0x60, 0x80] = .ok (.addDir 0x80, []) ∧
    decode [0xE0, 0x50] = .ok (.addInd 0x50, []) ∧ decode [0x21, 0x03] = .ok (.subImm 0x03, []) ∧
    decode [0x61, 0x81] = .ok (.subDir 0x81, []) ∧ decode [0xE1, 0x50] = .ok (.subInd 0x50, []) ∧
    decode [0x22, 0xFF] = .ok (.nandImm 0xFF, []) ∧
    decode [0x62, 0x80] = .ok (.nandDir 0x80, []) ∧
    decode [0xE2, 0x50] = .ok (.nandInd 0x50, []) :=
  ⟨rfl, rfl, rfl, rfl, rfl, rfl, rfl, rfl, rfl⟩

theorem test_decode_transfer :
    decode [0x00, 0x07] = .ok (.loadImm 0x07, []) ∧
    decode [0x40, 0x80] = .ok (.loadDir 0x80, []) ∧
    decode [0xC0, 0x50] = .ok (.loadInd 0x50, []) ∧
    decode [0x48, 0x81] = .ok (.storeDir 0x81, []) ∧
    decode [0xC8, 0x50] = .ok (.storeInd 0x50, []) := ⟨rfl, rfl, rfl, rfl, rfl⟩

theorem test_decode_io :
    decode [0x49, 0x80] = .ok (.inDir 0x80, []) ∧ decode [0xC9, 0x50] = .ok (.inInd 0x50, []) ∧
    decode [0x01, 0x2A] = .ok (.outImm 0x2A, []) ∧
    decode [0x41, 0x40] = .ok (.outDir 0x40, []) ∧
    decode [0xC1, 0x82] = .ok (.outInd 0x82, []) := ⟨rfl, rfl, rfl, rfl, rfl⟩

theorem test_decode_control :
    decode [0x10, 0x22] = .ok (.jumpDir 0x22, []) ∧ decode [0x11, 0x28] = .ok (.brnDir 0x28, []) ∧
    decode [0x12, 0x28] = .ok (.brzDir 0x28, []) := ⟨rfl, rfl, rfl⟩

/-- V60, V61, V62: bytes outside the table, two of which fit the pattern of R86. -/
theorem test_decode_unrecognized :
    decode [0xFF, 0x00] = .error (.unrecognized 0xFF) ∧
    decode [0x23, 0x00] = .error (.unrecognized 0x23) ∧
    decode [0x08, 0x00] = .error (.unrecognized 0x08) ∧
    decode [0x20] = .error .truncated := ⟨rfl, rfl, rfl, rfl⟩

/-- The opcode byte is bits 7..0 of a table word, the operand byte bits 15..8. -/
theorem test_table_words :
    decodeTableWord 16 0x82C1 = some (.outInd 0x82) ∧
    decodeTableWord 16 0x0520 = some (.addImm 0x05) ∧
    decodeTableWord 8 0x0520 = some (.addImm 0x00) ∧
    decodeTableWord 16 0x0008 = none := by decide

/-- The table of R84 and the names of R90. -/
theorem test_spelling :
    Mnemonic.all.map Mnemonic.spelling =
      ["ADD#", "ADD@", "ADD*@", "SUB#", "SUB@", "SUB*@", "NAND#", "NAND@", "NAND*@",
        "LOAD#", "LOAD@", "LOAD*@", "STORE@", "STORE*@", "IN@", "IN*@",
        "OUT#", "OUT@", "OUT*@", "JUMP@", "BRN@", "BRZ@"] := by decide

/-! ### Well-formedness -/

/-- An opcode map that gives two rows one byte is refused (R85). -/
def clashingOpc : OpcodeMap
  | .outImm => 0x00
  | m => Config.opc m

/-- Another injective map: the rows numbered in the order of R84. -/
def rowOpc (m : Mnemonic) : Byte := BitVec.ofNat 8 (Mnemonic.all.idxOf m)

theorem test_wellFormed_opcodeMap :
    Config.opc.wellFormed = true ∧ OpcodeMap.wellFormed rowOpc = true ∧
      clashingOpc.wellFormed = false := by decide

/-- D20: three tokens do not fit from 0xFE, two do; one fits from 0xFF, two do not. -/
theorem test_wellFormed_program :
    programFits 0xFE [0x00, 0x07, 0x01] = false ∧ programFits 0xFE [0x00, 0x07] = true ∧
      programFits 0xFF [0x00] = true ∧ programFits 0xFF [0x00, 0x00] = false ∧
      loaderScript 0xFE [0x00, 0x07, 0x01] = none := by decide

/-! ### One step, from the vectors of part 2 -/

/-- Cells of a small memory. -/
def cells (l : List (Byte × Byte)) : Memory :=
  l.foldl (fun m c => m.write c.1 c.2) []

/-- A running machine between two cycles. -/
def small (pc : PcWord) (a : Byte) (l : List (Byte × Byte)) : State :=
  { State.reset with ph := .idle, pc := pc, a := a, mem := cells l }

/-- A and PC after one step. -/
def aPc (s : State) : Option (Byte × PcWord) :=
  match step s with
  | .next t => some (t.a, t.pc)
  | .fault _ | .refused _ => none

/-- One cell and PC after one step. -/
def cellPc (addr : Byte) (s : State) : Option (Byte × PcWord) :=
  match step s with
  | .next t => some (memRead addr t, t.pc)
  | .fault _ | .refused _ => none

/-- RS, PC and the new events after one step. -/
def ending (s : State) : Option (RunState × PcWord × List Event) :=
  match step s with
  | .next t => some (t.rs, t.pc, t.events)
  | .fault _ | .refused _ => none

/-- Phase, counter and the new events after one step. -/
def hooks (s : State) : Option (Phase × Nat × List Event) :=
  match step s with
  | .next t => some (t.ph, t.cyc, t.events)
  | .fault _ | .refused _ => none

/-- V1. -/
theorem test_add_imm_wraps :
    aPc (small 0x30 0xFE [(0x30, 0x20), (0x31, 0x05)]) = some (0x03, 0x032) := by decide

/-- V5. -/
theorem test_add_dir :
    aPc (small 0x30 0x10 [(0x30, 0x60), (0x31, 0x80), (0x80, 0x22)]) =
      some (0x32, 0x032) := by decide

/-- V6: the operand names the instruction's own opcode cell. -/
theorem test_add_dir_own_opcode :
    aPc (small 0x30 0x01 [(0x30, 0x60), (0x31, 0x30)]) = some (0x61, 0x032) := by decide

/-- V7. -/
theorem test_add_ind :
    aPc (small 0x30 0x01 [(0x30, 0xE0), (0x31, 0x50), (0x50, 0x60), (0x60, 0xFF)]) =
      some (0x00, 0x032) := by decide

/-- V9. -/
theorem test_sub_imm_borrows :
    aPc (small 0x22 0x02 [(0x22, 0x21), (0x23, 0x03)]) = some (0xFF, 0x024) := by decide

/-- V12. -/
theorem test_sub_dir :
    aPc (small 0x30 0x05 [(0x30, 0x61), (0x31, 0x81), (0x81, 0x05)]) =
      some (0x00, 0x032) := by decide

/-- V13. -/
theorem test_sub_ind :
    aPc (small 0x30 0x00 [(0x30, 0xE1), (0x31, 0x50), (0x50, 0x60), (0x60, 0x80)]) =
      some (0x80, 0x032) := by decide

/-- V14. -/
theorem test_nand_imm_is_not :
    aPc (small 0x28 0xFB [(0x28, 0x22), (0x29, 0xFF)]) = some (0x04, 0x02A) := by decide

/-- V17. -/
theorem test_nand_dir :
    aPc (small 0x30 0xF0 [(0x30, 0x62), (0x31, 0x80), (0x80, 0x3C)]) =
      some (0xCF, 0x032) := by decide

/-- V18. -/
theorem test_nand_ind :
    aPc (small 0x30 0xAA [(0x30, 0xE2), (0x31, 0x50), (0x50, 0x60)]) =
      some (0xFF, 0x032) := by decide

/-- V20, and its narration (R179). -/
theorem test_load_imm :
    ending (small 0x20 0x00 [(0x21, 0x07)]) =
      some (.run, 0x022, [.narr 0x020 .loadImm 0x07 0x07 none]) := by decide

/-- V22. -/
theorem test_load_dir :
    aPc (small 0x22 0x00 [(0x22, 0x40), (0x23, 0x80), (0x80, 0xFB)]) =
      some (0xFB, 0x024) := by decide

/-- V25. -/
theorem test_load_ind :
    aPc (small 0x30 0x00 [(0x30, 0xC0), (0x31, 0x50), (0x50, 0x61), (0x61, 0x14)]) =
      some (0x14, 0x032) := by decide

/-- V26. -/
theorem test_store_dir :
    cellPc 0x81 (small 0x2C 0x05 [(0x2C, 0x48), (0x2D, 0x81)]) = some (0x05, 0x02E) := by
  decide

/-- V27: a store onto its own opcode does not disturb its own cycle. -/
theorem test_store_dir_own_opcode :
    cellPc 0x2C (small 0x2C 0x05 [(0x2C, 0x48), (0x2D, 0x2C)]) = some (0x05, 0x02E) := by
  decide

/-- V29. -/
theorem test_store_ind :
    cellPc 0x90 (small 0x30 0x7E [(0x30, 0xC8), (0x31, 0x50), (0x50, 0x90)]) =
      some (0x7E, 0x032) := by decide

/-- V30: the pointer is read before its own store. -/
theorem test_store_ind_over_pointer :
    cellPc 0x50 (small 0x30 0x7E [(0x30, 0xC8), (0x31, 0x50), (0x50, 0x50)]) =
      some (0x7E, 0x032) := by decide

/-- V32. -/
theorem test_in_dir :
    cellPc 0x80 ((small 0x20 0x00 [(0x20, 0x49), (0x21, 0x80)]).setInItems [.byte 0xFB]) =
      some (0xFB, 0x022) := by decide

/-- V33. -/
theorem test_in_ind :
    cellPc 0x90
      ((small 0x30 0x00 [(0x30, 0xC9), (0x31, 0x50), (0x50, 0x90)]).setInItems [.byte 0x2A]) =
      some (0x2A, 0x032) := by decide

/-- V34: the malformed item. -/
theorem test_in_dir_malformed :
    ending ((small 0x20 0x00 [(0x20, 0x49), (0x21, 0x80), (0x80, 0x11)]).setInItems
      [.malformed]) = some (.fatalInput, 0x020, [.fatalInputMalformed]) := by decide

/-- V36: no item yet, on the indirect form. -/
theorem test_in_ind_waits :
    hooks (small 0x20 0x00 [(0x20, 0xC9), (0x21, 0x80)]) = some (.inWait, 1, []) := by decide

/-- V40. -/
theorem test_out_imm :
    ending (small 0x20 0x00 [(0x20, 0x01), (0x21, 0x2A)]) =
      some (.haltOut, 0x020, [.out 0x2A, .narr 0x020 .outImm 0x2A 0x00 none]) := by decide

/-- V41. -/
theorem test_out_dir :
    ending (small 0x2A 0x00 [(0x2A, 0x41), (0x2B, 0x40), (0x40, 0x0E)]) =
      some (.haltOut, 0x02A, [.out 0x0E, .narr 0x02A .outDir 0x40 0x00 none]) := by decide

/-- V42. -/
theorem test_out_ind :
    ending (small 0x32 0x81 [(0x32, 0xC1), (0x33, 0x82), (0x82, 0x81), (0x81, 0x05)]) =
      some (.haltOut, 0x034, [.out 0x05, .narr 0x032 .outInd 0x82 0x81 none]) := by decide

/-- V43: OUT*@ at the last address of the window halts by OUT with PC 0x100. -/
theorem test_out_ind_at_top :
    ending (small 0xFE 0x00 [(0xFE, 0xC1), (0xFF, 0x90), (0x90, 0x91), (0x91, 0x33)]) =
      some (.haltOut, 0x100, [.out 0x33, .narr 0x0FE .outInd 0x90 0x00 none]) := by decide

/-- V44. -/
theorem test_jump :
    aPc (small 0x26 0x00 [(0x26, 0x10), (0x27, 0x22)]) = some (0x00, 0x022) := by decide

/-- V52, V53. -/
theorem test_brn :
    aPc (small 0x24 0x80 [(0x24, 0x11), (0x25, 0x28)]) = some (0x80, 0x028) ∧
    aPc (small 0x24 0x7F [(0x24, 0x11), (0x25, 0x28)]) = some (0x7F, 0x026) := by decide

/-- V55, V57. -/
theorem test_brz :
    aPc (small 0x24 0x00 [(0x24, 0x12), (0x25, 0x28)]) = some (0x00, 0x028) ∧
    aPc (small 0x24 0x80 [(0x24, 0x12), (0x25, 0x28)]) = some (0x80, 0x026) := by decide

/-- V59: the fall-through of a BRZ at 0xFD leaves the window. -/
theorem test_brz_falls_off_the_top :
    aPc (small 0xFD 0x01 [(0xFD, 0x12), (0xFE, 0x40)]) = some (0x01, 0x0FF) := by decide

/-- V60. -/
theorem test_unrecognized :
    ending (small 0x20 0x00 [(0x20, 0xFF)]) = some (.run, 0x020, [.illegal 0x020 0xFF]) := by
  decide

/-! ### The sequencer, the load phase and the debug controller -/

/-- V63, V64: no cycle outside the window. -/
theorem test_window_edges :
    ending (small 0x1F 0x00 []) = some (.stopRange, 0x01F, []) ∧
    ending (small 0xFF 0x00 []) = some (.stopRange, 0x0FF, []) := by decide

/-- V19, V65: the last executable address. -/
theorem test_window_top :
    aPc (small 0xFE 0x00 [(0xFE, 0x20), (0xFF, 0x01)]) = some (0x01, 0x100) := by decide

/-- The loader's write port, its `run`, and the dump of R220. -/
theorem test_load_phase :
    cellPc 0x20 (State.reset.setLoads [.write 0x20 0x12, .run]) = some (0x12, 0x020) ∧
    hooks (State.reset.setLoads [.run]) = some (.idle, 0, []) ∧
    hooks State.reset = some (.load, 0, []) ∧
    hooks { State.reset with dumpOnLoad := true, loads := [.write 0x20 0x12] } =
      some (.load, 0, [.dump 0x20 0x12]) := by decide

/-- V67 to V73. -/
theorem test_fires :
    fires 0x024 0x24 = true ∧ fires 0x024 0x25 = true ∧ fires 0x024 0x26 = false ∧
    fires 0x024 0x23 = false ∧ fires 0x020 0x1F = false ∧ fires 0x0FE 0xFF = true ∧
    fires 0x020 0x20 = true := by decide

/-- A machine with the breakpoint on the operand of a LOAD# at 0x20. -/
def atBreakpoint : State :=
  { small 0x20 0x00 [(0x21, 0x07)] with breakpointArmed := true, breakpointAddress := 0x21 }

/-- R202: the breakpoint announces itself and waits; the resume event lets the
instruction run in the same cycle. -/
theorem test_breakpoint :
    hooks atBreakpoint = some (.bpWait, 1, [.bpHit 1 0x020 0x21]) ∧
    hooks (atBreakpoint.setResumes 1) =
      some (.idle, 1, [.bpHit 1 0x020 0x21, .narr 0x020 .loadImm 0x07 0x07 none]) := by decide

/-- The third cycle of the stepper table of part 2, before its line is there. -/
def atPrompt : State :=
  { small 0x24 0x02 [(0x24, 0x12), (0x25, 0x28)] with
    cyc := 2, stepping := true, verboseTrace := true, journalEnabled := true }

/-- rec3 of part 2. -/
def rec3 : Record where
  cyc := 3
  pc := 0x024
  opcAddr := 0x024
  opcVal := 0x12
  opdAddr := 0x025
  opdVal := 0x28
  acc := 0x02
  mnemonic := some .brzDir
  operand := 0x28

theorem test_stepper_prompt :
    hooks atPrompt = some (.stepWait, 3, [.journal rec3, .trace rec3, .prompt 0x024 0x02]) := by
  decide

/-- Row 3 of part 2 with its line `print x`, which is no command. -/
theorem test_stepper_line :
    hooks (atPrompt.setLines [['p', 'r', 'i', 'n', 't', ' ', 'x']]) =
      some (.idle, 3, [.journal rec3, .trace rec3, .prompt 0x024 0x02,
        .narr 0x024 .brzDir 0x28 0x02 none]) := by decide

/-- `PRINT`, `stop_print`, `Stop_Stepper` and `print x` of part 2. -/
theorem test_stepper_commands :
    classifyLine ['P', 'R', 'I', 'N', 'T'] = .print ∧
    classifyLine wordStopPrint = .stopPrint ∧
    classifyLine ['S', 't', 'o', 'p', '_', 'S', 't', 'e', 'p', 'p', 'e', 'r'] = .stopStepper ∧
    classifyLine ['p', 'r', 'i', 'n', 't', ' ', 'x'] = .none ∧ classifyLine [] = .none := by
  decide

/-- V34 goes on into the fault of R242. -/
theorem test_aborted_run_faults :
    step { State.reset with ph := .idle, rs := .fatalInput } = .fault .inputMalformed := rfl

/-- R278: the load port is ignored outside the load phase, and a key pressed before a
breakpoint fires is no resume event (R202). -/
theorem test_unasked_moves_are_dropped :
    hostSend (.load (.write 0x20 0x01)) atBreakpoint = atBreakpoint ∧
    hostSend .resume atBreakpoint = atBreakpoint ∧
    (hostSend .resume { atBreakpoint with ph := .bpWait }).resumes = 1 := by decide

/-! ### Witnesses: the hypotheses of the obligations can be met -/

theorem wit_DecodeOfEncodeIsIdentity :
    Config.opc.wellFormed = true ∧ OpcodeMap.wellFormed rowOpc = true ∧
      (Instr.outInd 0x82).wellFormed = true := by decide

theorem wit_DecodedBytesAreTheEncoding :
    decodeWith Config.opc [0xC1, 0x82, 0x07] = .ok (.outInd 0x82, [0x07]) := rfl

theorem wit_DecodeByteMatchesTheTable :
    OpcodeMap.wellFormed rowOpc = true ∧ decodeByte rowOpc 0x15 = some .brzDir ∧
      decodeByte rowOpc 0x16 = none := by decide

theorem wit_UnrecognizedBytesAre234 : Config.opc.wellFormed = true := by decide

/-- Two tokens that end at 0xFF, a cell below them and none above; and the RAM dump on,
with the stepper off. -/
theorem wit_LoaderPlacesTokensFromStart :
    loaderScript 0xFE [0x00, 0x07] = some [.write 0xFE 0x00, .write 0xFF 0x07, .run] ∧
      (({ Config.dbg0 with dumpOnLoad := true }).dumpOnLoad = true →
        ({ Config.dbg0 with dumpOnLoad := true }).stepEnabled = false) ∧
      (0xFD : Byte).toNat < (0xFE : Byte).toNat := by decide

/-- A load phase with the dump and the stepper on, and one write. -/
def atDump : State :=
  { State.reset with dumpOnLoad := true, stepping := true, loads := [.write 0x20 0x12, .run] }

theorem wit_RamDumpPausesForOneLine :
    atDump.rs = .run ∧ atDump.ph = .load ∧ atDump.dumpPause = false ∧
      atDump.dumpOnLoad = true ∧ atDump.stepping = true ∧
      atDump.loads = .write 0x20 0x12 :: [.run] ∧ atDump.lines = [] ∧
      (atDump.setLines [wordPrint]).lines = wordPrint :: [] := by decide

theorem wit_StartOutsideWindowRunsNoCycle :
    (0x1F : Byte).toNat ≤ 0x1F ∧ (0xFF : Byte).toNat = 0xFF := by decide

theorem wit_InStoresTheInputByte :
    (State.reset.setInItems [.byte 0xFB, .malformed]).inItems = .byte 0xFB :: [.malformed] :=
  rfl

theorem wit_MalformedInputAborts :
    (State.reset.setInItems [.malformed]).inItems = .malformed :: [] ∧
      (Instr.inDir 0x80 = .inDir 0x80 ∨ Instr.inDir 0x80 = .inInd 0x80) ∧
      (Instr.inInd 0x80 = .inDir 0x80 ∨ Instr.inInd 0x80 = .inInd 0x80) := by decide

theorem wit_InWithoutItemWaits :
    State.reset.inItems = [] ∧
      (Instr.inInd 0x80 = .inDir 0x80 ∨ Instr.inInd 0x80 = .inInd 0x80) := by decide

/-- A state from which one step changes A. -/
theorem wit_OnlyTwelveInstructionsWriteA :
    ∃ t, stepWith Config.opc (small 0x20 0x00 [(0x21, 0x07)]) = .next t ∧
      t.a ≠ (small 0x20 0x00 [(0x21, 0x07)]).a := ⟨_, rfl, by decide⟩

/-- A state from which one step changes memory, outside the load phase. -/
def atStore : State := small 0x2C 0x05 [(0x2C, 0x48), (0x2D, 0x81)]

/-- V33: an IN*@ through the pointer at 0x50 with its item there. -/
def atInInd : State :=
  (small 0x30 0x00 [(0x30, 0xC9), (0x31, 0x50), (0x50, 0x90)]).setInItems [.byte 0x2A]

/-- The cell a STORE@ changes is its operand; the cell an IN*@ changes is the one its operand
points to. -/
theorem wit_OnlyStoreInAndLoaderWriteMemory :
    (atStore.ph ≠ .load ∧ ∃ t, stepWith Config.opc atStore = .next t ∧
      target .dir (fetchOpnd atStore) atStore = 0x81 ∧
      memRead 0x81 t ≠ memRead 0x81 atStore) ∧
    (atInInd.ph ≠ .load ∧ ∃ t, stepWith Config.opc atInInd = .next t ∧
      target .ind (fetchOpnd atInInd) atInInd = 0x90 ∧
      memRead 0x90 t ≠ memRead 0x90 atInInd) :=
  ⟨⟨by decide, _, rfl, by decide, by decide⟩, ⟨by decide, _, rfl, by decide, by decide⟩⟩

/-- An IN at 0x20 with its item malformed. -/
def atMalformed : State :=
  (small 0x20 0x00 [(0x20, 0x49), (0x21, 0x80)]).setInItems [.malformed]

/-- The three ways a run ends, each from a running machine. -/
theorem wit_RunEndsInThreeWaysOnly :
    (∃ t, stepWith Config.opc (small 0x1F 0x00 []) = .next t ∧ t.rs = .stopRange) ∧
    (∃ t, stepWith Config.opc (small 0x20 0x00 [(0x20, 0x01)]) = .next t ∧
      t.rs = .haltOut) ∧
    (∃ t, stepWith Config.opc atMalformed = .next t ∧ t.rs = .fatalInput) :=
  ⟨⟨_, rfl, rfl⟩, ⟨_, rfl, rfl⟩, ⟨_, rfl, rfl⟩⟩

/-- A step that counts, and one that does not: a wait that goes on. -/
theorem wit_CycCountsIterations :
    (∃ t, stepWith Config.opc atStore = .next t) ∧
    (∃ t, stepWith Config.opc { atBreakpoint with ph := .bpWait } = .next t) :=
  ⟨⟨_, rfl⟩, ⟨_, rfl⟩⟩

theorem wit_EventsAreOnlyAppended :
    ∃ t, stepWith Config.opc atStore = .next t ∧ t.events ≠ atStore.events :=
  ⟨_, rfl, by decide⟩

theorem wit_FixedConfigurationNeverChanges :
    ∃ t, runWith Config.opc 2 (atBreakpoint.setResumes 2) = .next t := ⟨_, rfl⟩

/-- The invariant of the running machine between two cycles with nothing emitted. -/
theorem inv_small (opc : OpcodeMap) (pc : PcWord) (a : Byte) (l : List (Byte × Byte))
    (hm : (cells l).wf = true) (hp : pc.toNat ≤ 0x100) : (small pc a l).Inv opc where
  memWf := hm
  pcBound := hp
  phaseRuns := fun _ => rfl
  waitsInWindow := by rintro (h | h | h) <;> cases h
  bpWaitFires := nofun
  stepWaitStepping := nofun
  inWaitIn := nofun
  dumpPauseLoads := nofun
  loadFresh := nofun
  stopRangeOutside := nofun
  oneOut := rfl
  oneFatal := rfl

/-- Two steps on an unrecognized byte with the stepper off, from a state with the
invariant; and a step that begins and ends with the stepper on. -/
theorem wit_StepperOffFreezesTheFlags :
    (∃ t, runWith Config.opc 2 (small 0x20 0x00 [(0x20, 0xFF)]) = .next t) ∧
    (small 0x20 0x00 [(0x20, 0xFF)]).Inv Config.opc ∧
    (small 0x20 0x00 [(0x20, 0xFF)]).stepping = false ∧
    (∃ t, runWith Config.opc 1 (atPrompt.setLines [wordPrint]) = .next t ∧
      t.stepping = true) :=
  ⟨⟨_, rfl⟩, inv_small _ _ _ _ (by decide) (by decide), rfl, ⟨_, rfl, rfl⟩⟩

/-- An IN at 0x20 with no item. -/
def atIn : State := small 0x20 0x00 [(0x20, 0x49), (0x21, 0x80)]

/-- One step into each of the three waits. -/
theorem wit_WaitingChangesNoArchitecturalState :
    (∃ t, stepWith Config.opc atBreakpoint = .next t ∧ t.ph = .bpWait) ∧
    (∃ t, stepWith Config.opc atPrompt = .next t ∧ t.ph = .stepWait) ∧
    (∃ t, stepWith Config.opc atIn = .next t ∧ t.ph = .inWait) :=
  ⟨⟨_, rfl, rfl⟩, ⟨_, rfl, rfl⟩, ⟨_, rfl, rfl⟩⟩

/-- A step with each of the five outcomes. -/
theorem wit_OneDatapathOutcomePerStep :
    (∃ t, stepWith Config.opc State.reset = .next t ∧ datapathEvents t = []) ∧
    (∃ t, stepWith Config.opc atStore = .next t ∧ (datapathEvents t).length = 1) ∧
    (∃ t, stepWith Config.opc (small 0x20 0x00 [(0x20, 0x01)]) = .next t ∧
      (datapathEvents t).length = 2) ∧
    (∃ t, stepWith Config.opc (small 0x20 0x00 [(0x20, 0xFF)]) = .next t ∧
      datapathEvents t = [.illegal 0x020 0xFF]) ∧
    (∃ t, stepWith Config.opc atMalformed = .next t ∧
      datapathEvents t = [.fatalInputMalformed]) :=
  ⟨⟨_, rfl, rfl⟩, ⟨_, rfl, rfl⟩, ⟨_, rfl, rfl⟩, ⟨_, rfl, rfl⟩, ⟨_, rfl, rfl⟩⟩

/-- A quiet running machine at the last executable address. -/
def atTop : State := small 0xFE 0x00 [(0xFE, 0x20), (0xFF, 0x01)]

theorem wit_StepRunsTheDecodedInstruction :
    atTop.rs = .run ∧ atTop.ph = .idle ∧ inWindow atTop.pc = true ∧ atTop.quiet ∧
      decodeWith Config.opc
        [memRead (atTop.pc.setWidth 8) atTop, memRead ((atTop.pc + 1).setWidth 8) atTop]
        = .ok (.addImm 0x01, []) := by
  refine ⟨rfl, rfl, by decide, ⟨rfl, rfl, rfl, rfl⟩, rfl⟩

/-- Every hook on, with its answer there. -/
def atAllHooks : State :=
  { atPrompt with
    breakpointArmed := true, breakpointAddress := 0x25, resumes := 1, lines := [wordPrint] }

theorem wit_CycleFollowsTheHookOrder :
    atAllHooks.rs = .run ∧ atAllHooks.ph = .idle ∧ inWindow atAllHooks.pc = true ∧
      atAllHooks.answered ∧ breakpointFires atAllHooks = true ∧
      decodeWith Config.opc [fetchOpc atAllHooks, fetchOpnd atAllHooks]
        = .ok (.brzDir 0x28, []) := by
  refine ⟨rfl, rfl, by decide, ⟨fun _ => by decide, fun _ => by decide⟩, by decide, rfl⟩

theorem wit_RecordDescribesTheInstructionToRun :
    inWindow (small 0x20 0x00 []).pc = true ∧ inWindow atTop.pc = true := by decide

theorem wit_WindowTestEndsTheRun :
    (small 0x1F 0x00 []).rs = .run ∧ (small 0x1F 0x00 []).ph = .idle ∧
      (small 0x1F 0x00 []).pc.toNat ≤ 0x1F ∧ 0xFF ≤ (small 0xFF 0x00 []).pc.toNat := by
  decide

theorem wit_EndedRunHoldsItsState :
    ((small 0x20 0x00 []).setRs .haltOut).ended ∧
      ((small 0x1F 0x00 []).setRs .stopRange).ended := ⟨.inl rfl, .inr rfl⟩

/-- V60, and answers for two steps with the breakpoint and the stepper on. -/
def atUnrecognized : State :=
  { small 0x20 0x00 [(0x20, 0xFF)] with
    breakpointArmed := true, breakpointAddress := 0x20, stepping := true
    resumes := 2, lines := [[], []] }

theorem wit_UnrecognizedOpcodeRunsForEver :
    atUnrecognized.livelocked Config.opc ∧ 2 ≤ atUnrecognized.resumes ∧
      2 ≤ atUnrecognized.lines.length := by
  refine ⟨⟨rfl, rfl, by decide, by decide⟩, by decide, by decide⟩

/-- A STORE@ at 0x24 that reaches the opcode, the operand, or neither, of the next
instruction. -/
theorem wit_StoreIsSeenByTheNextFetch :
    (∃ t, exec (.storeDir 0x26) (small 0x24 0x21 []) = .next t ∧ t.pc.setWidth 8 = 0x26#8) ∧
    (∃ t, exec (.storeDir 0x27) (small 0x24 0x21 []) = .next t ∧
      (t.pc + 1).setWidth 8 = 0x27#8) ∧
    (∃ t, exec (.storeDir 0x40) (small 0x24 0x21 []) = .next t ∧
      t.pc.setWidth 8 ≠ 0x40#8) :=
  ⟨⟨_, rfl, by decide⟩, ⟨_, rfl, by decide⟩, ⟨_, rfl, by decide⟩⟩

theorem wit_LateAnswerEqualsEarlyAnswer :
    atBreakpoint.rs = .run ∧ atPrompt.rs = .run ∧ atIn.rs = .run ∧
    (∃ t, stepWith Config.opc atBreakpoint = .next t ∧ t.ph = .bpWait) ∧
    (∃ t, stepWith Config.opc atPrompt = .next t ∧ t.ph = .stepWait) ∧
    (∃ t, stepWith Config.opc atIn = .next t ∧ t.ph = .inWait) :=
  ⟨rfl, rfl, rfl, ⟨_, rfl, rfl⟩, ⟨_, rfl, rfl⟩, ⟨_, rfl, rfl⟩⟩

theorem wit_BreakpointFiresOnTheInstructionCells :
    inWindow 0x020 = true ∧ inWindow 0x0FE = true ∧ inWindow 0x01F = false ∧
      inWindow 0x0FF = false ∧ (0x1F : Byte).toNat < 0x20 := by decide

theorem wit_BreakpointPausesBeforeTheInstruction :
    atBreakpoint.rs = .run ∧ atBreakpoint.ph = .idle ∧ inWindow atBreakpoint.pc = true ∧
      breakpointFires atBreakpoint = true ∧ atBreakpoint.resumes = 0 := by decide

theorem wit_StepperPausesBeforeTheInstruction :
    atPrompt.rs = .run ∧ atPrompt.ph = .idle ∧ inWindow atPrompt.pc = true ∧
      breakpointFires atPrompt = false ∧ atPrompt.stepping = true ∧ atPrompt.lines = [] := by
  decide

/-- A line for each clause: the words in capitals, a line of a word's length that is no
word, and an empty line. -/
theorem wit_StepperCommandsChangeTwoFlags :
    List.map lowerChar ['P', 'R', 'I', 'N', 'T'] = wordPrint ∧
    wordStopPrint.map lowerChar = wordStopPrint ∧
    wordStopStepper.map lowerChar = wordStopStepper ∧
    List.map lowerChar ['p', 'r', 'i', 'n', 'k'] ∉
      [wordStopStepper, wordPrint, wordStopPrint] ∧
    (([] : Line).length ≠ 12 ∧ ([] : Line).length ≠ 5 ∧ ([] : Line).length ≠ 10) := by decide

/-- The same program with every hook off and with every hook on. -/
theorem wit_DebugControllerLeavesTheDatapathAlone :
    DatapathAgree
      { small 0x20 0x00 [(0x20, 0xFF)] with resumes := 2, lines := [[], []] }
      atUnrecognized ∧
    (small 0x20 0x00 [(0x20, 0xFF)]).ph = .idle ∧ 2 ≤ atUnrecognized.resumes ∧
      2 ≤ atUnrecognized.lines.length :=
  ⟨⟨rfl, rfl, rfl, rfl, rfl, rfl, rfl, rfl⟩, rfl, by decide, by decide⟩

/-- A move the machine does not ask for, and each move where the machine asks for it. -/
theorem wit_HostOnlyAnswersTheMachine :
    ((∀ p, HostMove.resume ≠ .reset p) ∧ asksFor atBreakpoint .resume = false) ∧
    ((∀ p, HostMove.load .run ≠ .reset p) ∧ asksFor State.reset (.load .run) = true) ∧
    asksFor (atBreakpoint.setPh .bpWait) .resume = true ∧
    ((∀ p, HostMove.line wordPrint ≠ .reset p) ∧
      asksFor (atPrompt.setPh .stepWait) (.line wordPrint) = true ∧
      asksFor (atDump.setDumpPause true) (.line wordPrint) = true) ∧
    ((∀ p, HostMove.item .malformed ≠ .reset p) ∧
      asksFor ((small 0x20 0x00 []).setPh .inWait) (.item .malformed) = true) :=
  ⟨⟨nofun, by decide⟩, ⟨nofun, by decide⟩, by decide, ⟨nofun, by decide, by decide⟩,
    ⟨nofun, by decide⟩⟩

theorem wit_InvHoldsAfterReset :
    (RunParams.mk 0x20 Config.dbg0 [(0x20, 0x01), (0xFF, 0x07)]).mem0.wf = true := by decide

theorem wit_EveryStepKeepsInv :
    atStore.Inv Config.opc ∧ ∃ t, stepWith Config.opc atStore = .next t :=
  ⟨inv_small _ _ _ _ (by decide) (by decide), _, rfl⟩

/-- An aborted run with the invariant, and one that goes on. -/
def aborted : State :=
  { State.reset with ph := .idle, rs := .fatalInput, events := [.fatalInputMalformed] }

theorem wit_OnlyAnAbortedRunFaults :
    aborted.Inv Config.opc ∧ aborted.aborted ∧ atStore.Inv Config.opc ∧ ¬ atStore.aborted :=
  ⟨{ memWf := by decide
     pcBound := by decide
     phaseRuns := fun h => absurd rfl h
     waitsInWindow := by rintro (h | h | h) <;> cases h
     bpWaitFires := nofun
     stepWaitStepping := nofun
     inWaitIn := nofun
     dumpPauseLoads := nofun
     loadFresh := nofun
     stopRangeOutside := nofun
     oneOut := rfl
     oneFatal := rfl }, rfl, inv_small _ _ _ _ (by decide) (by decide), nofun⟩

theorem wit_WellFormedInputIsSafe :
    atIn.Inv Config.opc ∧ ¬ atIn.aborted ∧ InputItem.malformed ∉ atIn.inItems :=
  ⟨inv_small _ _ _ _ (by decide) (by decide), nofun, by decide⟩

theorem wit_HostMovesKeepInv :
    atIn.Inv Config.opc ∧
      ∀ p, HostMove.reset ⟨0x20, Config.dbg0, [(0x20, 0x01)]⟩ = .reset p →
        p.mem0.wf = true :=
  ⟨inv_small _ _ _ _ (by decide) (by decide), by rintro _ ⟨⟩; decide⟩

theorem wit_PlacedWordIsRunByTheNextStep :
    decodeTableWord 16 0x0520 = some (.addImm 0x05) ∧ State.reset.journalEnabled = false ∧
      State.reset.verboseTrace = false := by decide

end Sys2Proof.Tests
end

section
/-!
What a move of the host does (70_reset_and_hazards R278, R281): one equation per move
the machine asks for, the move it does not ask for, and the form of the answer to every
move that is no reset.
-/

namespace Sys2Proof.Machine

variable {s : State}

theorem hostSend_of_not_asksFor {m : HostMove} (h : asksFor s m = false) :
    hostSend m s = s := by
  simp [hostSend, h]

theorem hostSend_load_of_asksFor {mv : LoadMove} (h : asksFor s (.load mv) = true) :
    hostSend (.load mv) s = s.setLoads (s.loads ++ [mv]) := by
  simp [hostSend, h]

theorem hostSend_resume_of_asksFor (h : asksFor s .resume = true) :
    hostSend .resume s = s.setResumes (s.resumes + 1) := by
  simp [hostSend, h]

theorem hostSend_line_of_asksFor {l : Line} (h : asksFor s (.line l) = true) :
    hostSend (.line l) s = s.setLines (s.lines ++ [l]) := by
  simp [hostSend, h]

theorem hostSend_item_of_asksFor {it : InputItem} (h : asksFor s (.item it) = true) :
    hostSend (.item it) s = s.setInItems (s.inItems ++ [it]) := by
  simp [hostSend, h]

/-- R281: the four queues are all that a move other than reset can write. -/
theorem hostSend_eq_setQueues {m : HostMove} (hm : ∀ p, m ≠ .reset p) :
    ∃ loads resumes lines inItems, hostSend m s =
      (((s.setLoads loads).setResumes resumes).setLines lines).setInItems inItems := by
  cases hasks : asksFor s m with
  | false => exact ⟨s.loads, s.resumes, s.lines, s.inItems, hostSend_of_not_asksFor hasks⟩
  | true =>
    cases m with
    | reset p => exact absurd rfl (hm p)
    | load mv =>
      exact ⟨s.loads ++ [mv], s.resumes, s.lines, s.inItems, hostSend_load_of_asksFor hasks⟩
    | resume =>
      exact ⟨s.loads, s.resumes + 1, s.lines, s.inItems, hostSend_resume_of_asksFor hasks⟩
    | line l =>
      exact ⟨s.loads, s.resumes, s.lines ++ [l], s.inItems, hostSend_line_of_asksFor hasks⟩
    | item it =>
      exact ⟨s.loads, s.resumes, s.lines, s.inItems ++ [it], hostSend_item_of_asksFor hasks⟩

/-- R10, R281: the frame of every move other than reset. -/
theorem hostSend_frame {m : HostMove} (hm : ∀ p, m ≠ .reset p) :
    (hostSend m s).a = s.a ∧ (hostSend m s).pc = s.pc ∧ (hostSend m s).mem = s.mem ∧
      SameSequencer s (hostSend m s) ∧ SameDebug s (hostSend m s) ∧
      (hostSend m s).events = s.events := by
  obtain ⟨loads, resumes, lines, inItems, hsend⟩ := hostSend_eq_setQueues (s := s) hm
  simp [hsend, SameSequencer, SameDebug]

/-- Settles O43: the frame is read off the queues a move can write, and what joins which
queue off the equation of each move. -/
theorem hostOnlyAnswersTheMachine : Obligations.HostOnlyAnswersTheMachine := by
  intro m s hm
  obtain ⟨ha, hpc, hmem, hseq, hdebug, hevents⟩ := hostSend_frame (s := s) hm
  refine ⟨ha, hpc, hmem, hseq, hdebug, hevents, hostSend_of_not_asksFor,
    fun hasks => ⟨?load, ?resume, ?line, ?item⟩⟩
  case load => rintro mv rfl; simp [hostSend_load_of_asksFor hasks]
  case resume => rintro rfl; simp [hostSend_resume_of_asksFor hasks]
  case line => rintro l rfl; simp [hostSend_line_of_asksFor hasks]
  case item => rintro it rfl; simp [hostSend_item_of_asksFor hasks, SameOtherQueues]

end Sys2Proof.Machine
end

section
/-!
What the state keeps (10_state R20 to R39): the fields no instruction writes, the fixed
debug configuration, an ended run, and the invariant, which holds after reset and which
every step keeps. Each claim about a step is a case split along `StepNext`.
-/

namespace Sys2Proof.Machine

variable {opc : OpcodeMap} {s t u : State}

/-! ### Reset (R38, R270) -/

theorem hostSend_reset (p : RunParams) (s : State) :
    hostSend (.reset p) s = State.resetWith p := rfl

theorem resetWith_pc_toNat (p : RunParams) :
    (State.resetWith p).pc.toNat = p.start.toNat := by
  have hstart : p.start.toNat < 2 ^ 9 := p.start.isLt.trans (by decide)
  exact (BitVec.toNat_setWidth 9 p.start).trans (Nat.mod_eq_of_lt hstart)

/-- Settles O6: every field is the one `State.resetWith` gives, and START keeps its value in
the wider PC. -/
theorem resetGivesTheRunStartState : Obligations.ResetGivesTheRunStartState := fun s p =>
  ⟨hostSend_reset p s, rfl, resetWith_pc_toNat p, rfl, rfl, rfl, rfl, rfl, rfl, rfl, rfl, rfl,
    fun _ => rfl⟩

/-! ### What no instruction writes -/

/-- R27, R28: CYC, the debug configuration and the queues of the debugger and the loader are
outside the reach of an instruction. -/
theorem ExecShape.frame {m : Mnemonic} {opnd : Byte} (h : ExecShape m opnd s t) :
    t.cyc = s.cyc ∧ SameDebug s t ∧ SameOtherQueues s t := by
  cases h <;> simp [SameDebug, SameOtherQueues]

/-- R21: the four families that write A. -/
theorem ExecShape.a_eq_or_family {m : Mnemonic} {opnd : Byte} (h : ExecShape m opnd s t) :
    t.a = s.a ∨
      m.family = .add ∨ m.family = .sub ∨ m.family = .nand ∨ m.family = .load := by
  cases h with
  | acc v hf => exact .inr hf
  | _ => exact .inl (by simp)

/-- Settles O21: no case of a step but an instruction of the four families writes A. -/
theorem onlyTwelveInstructionsWriteA : Obligations.OnlyTwelveInstructionsWriteA := by
  intro opc s t hstep ha
  cases StepNext.of_step hstep with
  | ended hrs ht => exact absurd (congrArg State.a ht) ha
  | loads hrs hph ht => exact absurd (ht ▸ (loadStep_keeps s).1) ha
  | stops hrs hph hw ht => exact absurd (congrArg State.a ht) ha
  | waits hu hp => exact absurd hu.frame.a ha
  | illegal u hu hd ht => exact absurd ((congrArg State.a ht).trans hu.frame.a) ha
  | instr u m hu hd hs =>
    refine ⟨m, hd, hs.a_eq_or_family.resolve_left fun h => ha ?_⟩
    exact h.trans hu.frame.a

/-! ### The cycle counter (R27) -/

/-- A cycle in progress was begun by this step exactly if the phase was IDLE. -/
theorem InCycle.cyc_eq (h : InCycle s u) :
    u.cyc =
      if s.rs = .run ∧ s.ph = .idle ∧ inWindow s.pc = true then s.cyc + 1 else s.cyc := by
  have hbegins : (s.rs = .run ∧ s.ph = .idle ∧ inWindow s.pc = true) ↔ s.ph = .idle :=
    ⟨fun hb => hb.2.1, fun hph => ⟨h.run, hph, h.window hph⟩⟩
  simp only [hbegins, h.cyc]

/-- Settles O24: the hooks of a cycle count it as `InCycle.cyc_eq` says, its engine step
counts nothing, and a step that is in no cycle does not meet the condition. -/
theorem cycCountsIterations : Obligations.CycCountsIterations := by
  intro opc s t hstep
  cases StepNext.of_step hstep with
  | ended hrs ht => rcases hrs with hrs | hrs <;> simp [ht, hrs]
  | loads hrs hph ht =>
    obtain ⟨-, -, hcyc, -⟩ := loadStep_keeps s
    simp [ht, hcyc, hph]
  | stops hrs hph hw ht => simp [ht, hw]
  | waits hu hp => exact hu.cyc_eq
  | illegal u hu hd ht => exact (congrArg State.cyc ht).trans hu.cyc_eq
  | instr u m hu hd hs => exact hs.frame.1.trans hu.cyc_eq

/-! ### The fixed configuration (R32, R33, R34) -/

/-- The journal flag, the breakpoint and the dump flag are unchanged. -/
def SameFixedConfig (s t : State) : Prop :=
  t.journalEnabled = s.journalEnabled ∧ t.breakpointArmed = s.breakpointArmed ∧
    t.breakpointAddress = s.breakpointAddress ∧ t.dumpOnLoad = s.dumpOnLoad

theorem SameFixedConfig.refl (s : State) : SameFixedConfig s s := ⟨rfl, rfl, rfl, rfl⟩

theorem SameFixedConfig.trans (h : SameFixedConfig s u) (k : SameFixedConfig u t) :
    SameFixedConfig s t := by
  obtain ⟨hj, hb, ha, hd⟩ := h
  obtain ⟨kj, kb, ka, kd⟩ := k
  exact ⟨kj.trans hj, kb.trans hb, ka.trans ha, kd.trans hd⟩

theorem SameDebug.sameFixedConfig (h : SameDebug s t) : SameFixedConfig s t := by
  obtain ⟨-, -, hj, hb, ha, hd, -⟩ := h
  exact ⟨hj, hb, ha, hd⟩

theorem HookFrame.sameFixedConfig (h : HookFrame s u) : SameFixedConfig s u :=
  ⟨h.journalEnabled, h.breakpointArmed, h.breakpointAddress, h.dumpOnLoad⟩

theorem loadStep_sameFixedConfig (s : State) : SameFixedConfig s (loadStep s) := by
  obtain ⟨-, -, -, -, hj, hb, ha, hd, -⟩ := loadStep_keeps s
  exact ⟨hj, hb, ha, hd⟩

theorem stepWith_sameFixedConfig (hstep : stepWith opc s = .next t) : SameFixedConfig s t := by
  cases StepNext.of_step hstep with
  | ended hrs ht => exact ht ▸ .refl s
  | loads hrs hph ht => exact ht ▸ loadStep_sameFixedConfig s
  | stops hrs hph hw ht => exact ht ▸ .refl s
  | waits hu hp => exact hu.frame.sameFixedConfig
  | illegal u hu hd ht => exact ht ▸ hu.frame.sameFixedConfig
  | instr u m hu hd hs =>
    obtain ⟨-, hdebug, -⟩ := hs.frame
    exact hu.frame.sameFixedConfig.trans hdebug.sameFixedConfig

/-- Settles O26, by induction over the run. -/
theorem fixedConfigurationNeverChanges : Obligations.FixedConfigurationNeverChanges :=
  fun _ => runWith_induction SameFixedConfig.refl
    fun _ _ _ hstep hrest => (stepWith_sameFixedConfig hstep).trans hrest

/-! ### An ended run (R39, R175) -/

theorem stepWith_ended (opc : OpcodeMap) (h : s.ended) : stepWith opc s = .next s := by
  rcases h with h | h <;> simp [stepWith, h]

/-- Settles O34, by induction on the number of steps. -/
theorem endedRunHoldsItsState : Obligations.EndedRunHoldsItsState := by
  intro opc n s h
  induction n with
  | zero => rfl
  | succ n ih => exact (runWith_succ_next (stepWith_ended opc h) n).trans ih

/-! ### The invariant, phase by phase -/

/-- The part of the invariant that a running machine has in every phase. -/
structure State.RunningInv (s : State) : Prop where
  run : s.rs = .run
  memWf : s.mem.wf = true
  pcBound : s.pc.toNat ≤ 0x100
  noOut : s.events.countP Event.isOut = 0
  noFatal : s.events.countP Event.isFatal = 0

theorem State.Inv.runningInv (h : s.Inv opc) (hrs : s.rs = .run) : s.RunningInv where
  run := hrs
  memWf := h.memWf
  pcBound := h.pcBound
  noOut := by simpa [hrs] using h.oneOut
  noFatal := by simpa [hrs] using h.oneFatal

theorem State.Inv.noDumpPause (h : s.Inv opc) (hph : s.ph ≠ .load) : s.dumpPause = false :=
  Bool.eq_false_of_not_eq_true fun hd => hph (h.dumpPauseLoads hd).1

/-- The invariant in phase LOAD. -/
theorem State.RunningInv.inv_of_load (h : s.RunningInv) (hph : s.ph = .load)
    (hpause : s.dumpPause = true → s.dumpOnLoad = true ∧ s.stepping = true)
    (hfresh : s.cyc = 0 ∧ s.a = 0) : s.Inv opc where
  memWf := h.memWf
  pcBound := h.pcBound
  phaseRuns _ := h.run
  waitsInWindow := by simp [hph]
  bpWaitFires := by simp [hph]
  stepWaitStepping := by simp [hph]
  inWaitIn := by simp [hph]
  dumpPauseLoads hd := ⟨hph, hpause hd⟩
  loadFresh _ := hfresh
  stopRangeOutside := by simp [h.run]
  oneOut := by simp [h.run, h.noOut]
  oneFatal := by simp [h.run, h.noFatal]

/-- The invariant in phase IDLE, between two cycles or after the end of a run. -/
theorem State.Inv.of_idle (hph : s.ph = .idle) (hmem : s.mem.wf = true)
    (hpc : s.pc.toNat ≤ 0x100) (hpause : s.dumpPause = false)
    (hstop : s.rs = .stopRange → inWindow s.pc = false)
    (hout : s.events.countP Event.isOut = if s.rs = .haltOut then 1 else 0)
    (hfatal : s.events.countP Event.isFatal = if s.rs = .fatalInput then 1 else 0) :
    s.Inv opc where
  memWf := hmem
  pcBound := hpc
  phaseRuns := by simp [hph]
  waitsInWindow := by simp [hph]
  bpWaitFires := by simp [hph]
  stepWaitStepping := by simp [hph]
  inWaitIn := by simp [hph]
  dumpPauseLoads := by simp [hpause]
  loadFresh := by simp [hph]
  stopRangeOutside := hstop
  oneOut := hout
  oneFatal := hfatal

/-- The invariant of a running machine between two cycles. -/
theorem State.RunningInv.inv_of_idle (h : s.RunningInv) (hph : s.ph = .idle)
    (hpause : s.dumpPause = false) : s.Inv opc :=
  .of_idle hph h.memWf h.pcBound hpause (by simp [h.run]) (by simp [h.run, h.noOut])
    (by simp [h.run, h.noFatal])

/-- What holds inside a cycle, whatever the phase. -/
structure State.CycleInv (s : State) : Prop extends s.RunningInv where
  window : inWindow s.pc = true
  noDumpPause : s.dumpPause = false

/-- The invariant inside a cycle that waits, each wait having its cause. -/
theorem State.CycleInv.inv_of_wait (h : s.CycleInv) (hload : s.ph ≠ .load)
    (hbp : s.ph = .bpWait → breakpointFires s = true)
    (hstep : s.ph = .stepWait → s.stepping = true)
    (hin : s.ph = .inWait →
      ∃ m, decodeByte opc (fetchOpc s) = some m ∧ m.family = .input) : s.Inv opc where
  memWf := h.memWf
  pcBound := h.pcBound
  phaseRuns _ := h.run
  waitsInWindow _ := h.window
  bpWaitFires := hbp
  stepWaitStepping := hstep
  inWaitIn := hin
  dumpPauseLoads := by simp [h.noDumpPause]
  loadFresh hph := absurd hph hload
  stopRangeOutside := by simp [h.run]
  oneOut := by simp [h.run, h.noOut]
  oneFatal := by simp [h.run, h.noFatal]

/-- The invariant holds inside a cycle: a cycle begins in the window or waits there, and the
hooks keep the rest. -/
theorem InCycle.cycleInv (hu : InCycle s u) (h : s.Inv opc) : u.CycleInv := by
  have hs := h.runningInv hu.run
  obtain ⟨hout, hfatal, -⟩ := hu.frame.eventCounts
  have hwindow : inWindow s.pc = true := by
    cases hph : s.ph with
    | load => exact absurd hph hu.notLoad
    | idle => exact hu.window hph
    | bpWait | stepWait | inWait => exact h.waitsInWindow (by simp [hph])
  exact
    { run := hu.frame.rs.trans hs.run
      memWf := hu.frame.mem ▸ hs.memWf
      pcBound := hu.frame.pc ▸ hs.pcBound
      noOut := hout.trans hs.noOut
      noFatal := hfatal.trans hs.noFatal
      window := hu.frame.pc ▸ hwindow
      noDumpPause := hu.frame.dumpPause.trans (h.noDumpPause hu.notLoad) }

theorem State.CycleInv.setPh (h : s.CycleInv) (p : Phase) : (s.setPh p).CycleInv :=
  { h with }

/-! ### What an instruction does to the invariant -/

/-- R23: the last instruction of the window leaves the PC at 0x100. -/
theorem toNat_add_two_le_of_inWindow {pc : PcWord} (h : inWindow pc = true) :
    (pc + 2).toNat ≤ 0x100 := by
  have := (inWindow_iff pc).1 h
  bv_omega

theorem toNat_setWidth_le (opnd : Byte) : (opnd.setWidth 9 : PcWord).toNat ≤ 0x100 := by
  have := opnd.isLt
  bv_omega

/-- The engine step of an instruction ends in a state with the invariant: in IN_WAIT on an
IN without an item, and otherwise in IDLE with at most one OUT or FATAL event more. -/
theorem State.CycleInv.inv_of_execShape {m : Mnemonic} {opnd : Byte} (h : s.CycleInv)
    (hph : s.ph = .idle) (hd : decodeByte opc (fetchOpc s) = some m)
    (hs : ExecShape m opnd s t) : t.Inv opc := by
  have hnext := toNat_add_two_le_of_inWindow h.window
  cases hs with
  | acc v hf =>
    exact State.RunningInv.inv_of_idle
      ⟨h.run, h.memWf, hnext, by simp [h.noOut], by simp [h.noFatal]⟩ hph h.noDumpPause
  | store cell hf hc =>
    exact State.RunningInv.inv_of_idle
      ⟨h.run, memWrite_wf h.memWf, hnext, by simp [h.noOut], by simp [h.noFatal]⟩ hph
      h.noDumpPause
  | inWaits hf hi => exact (h.setPh .inWait).inv_of_wait nofun nofun nofun fun _ => ⟨m, hd, hf⟩
  | inByte cell b rest hf hi hc =>
    exact State.RunningInv.inv_of_idle
      ⟨h.run, Memory.wf_write cell b h.memWf, hnext, by simp [h.noOut], by simp [h.noFatal]⟩ rfl
      h.noDumpPause
  | inMalformed rest hf hi =>
    exact .of_idle rfl h.memWf h.pcBound h.noDumpPause nofun (by simp [h.noOut])
      (by simp [h.noFatal])
  | out v pc hf hpc =>
    have hpc : pc.toNat ≤ 0x100 := by
      rcases hpc with rfl | rfl
      · exact h.pcBound
      · exact hnext
    exact .of_idle hph h.memWf hpc h.noDumpPause nofun
      (by simp [h.noOut, List.countP_cons]) (by simp [h.noFatal])
  | transfer pc hf hpc =>
    have hpc : pc.toNat ≤ 0x100 := by
      rcases hpc with rfl | rfl
      · exact toNat_setWidth_le opnd
      · exact hnext
    exact State.RunningInv.inv_of_idle
      ⟨h.run, h.memWf, hpc, by simp [h.noOut], by simp [h.noFatal]⟩ hph h.noDumpPause

/-! ### What a move of the load phase does to the invariant -/

theorem dumpCell_mem (addr v : Byte) (s : State) : (dumpCell addr v s).mem = s.mem := by
  unfold dumpCell
  split <;> rfl

theorem loadStep_mem_wf (h : s.mem.wf = true) : (loadStep s).mem.wf = true := by
  have hs := loadStep_shape s
  generalize loadStep s = t at hs
  cases hs with
  | waits => exact h
  | line l rest hd hl =>
    rw [State.setDumpPause_mem, (applyCommand_frame _ _).mem]
    exact h
  | write addr v rest hd hl =>
    rw [dumpCell_mem]
    exact memWrite_wf h
  | run rest hd hl => exact h

/-- R220: a move of the load phase that leaves a pause began in one, or dumps a cell with the
stepper on. -/
theorem loadStep_dumpPause
    (h : s.dumpPause = true → s.ph = .load ∧ s.dumpOnLoad = true ∧ s.stepping = true)
    (hph : s.ph = .load) (ht : (loadStep s).dumpPause = true) :
    (loadStep s).ph = .load ∧ (loadStep s).dumpOnLoad = true ∧
      (loadStep s).stepping = true := by
  have hs := loadStep_shape s
  generalize loadStep s = t at hs ht
  cases hs with
  | waits => exact h ht
  | line l rest hd hl => simp at ht
  | write addr v rest hd hl =>
    cases hdump : s.dumpOnLoad with
    | true =>
      simp only [dumpCell, memWrite_dumpOnLoad, State.setLoads_dumpOnLoad, hdump] at ht ⊢
      exact ⟨hph, hdump, ht⟩
    | false => simp [dumpCell, hdump, hd] at ht
  | run rest hd hl => simp [hd] at ht

theorem loadStep_runningInv (h : s.RunningInv) : (loadStep s).RunningInv := by
  obtain ⟨-, hpc, -, hrs, -, -, -, -, -, new, hev, hdebug⟩ := loadStep_keeps s
  obtain ⟨hout, hfatal, -⟩ := Event.debug_append (l := s.events) hdebug
  exact
    { run := hrs.trans h.run
      memWf := loadStep_mem_wf h.memWf
      pcBound := hpc ▸ h.pcBound
      noOut := hev ▸ hout.trans h.noOut
      noFatal := hev ▸ hfatal.trans h.noFatal }

/-- A move of the load phase stays in LOAD, or ends it with the loader's `run`, which no
dump pause survives. -/
theorem loadStep_inv (h : s.Inv opc) (hrs : s.rs = .run) (hph : s.ph = .load) :
    (loadStep s).Inv opc := by
  have ht := loadStep_runningInv (h.runningInv hrs)
  have hpause := loadStep_dumpPause h.dumpPauseLoads hph
  rcases loadStep_phase hph with hload | hidle
  · obtain ⟨ha, -, hcyc, -⟩ := loadStep_keeps s
    obtain ⟨hcyc0, ha0⟩ := h.loadFresh hph
    exact ht.inv_of_load hload (fun hd => (hpause hd).2) ⟨hcyc.trans hcyc0, ha.trans ha0⟩
  · have hno : (loadStep s).dumpPause = false :=
      Bool.eq_false_of_not_eq_true fun hd => by simpa [hidle] using (hpause hd).1
    exact ht.inv_of_idle hidle hno

/-! ### The invariant along a run -/

/-- A cycle that goes on waiting, or begins to, does so with its cause. -/
theorem InCycle.inv_of_waits (hu : InCycle s t) (h : s.Inv opc)
    (hp : (t.ph = .bpWait ∧ t.resumes = 0 ∧ (breakpointFires s = true ∨ t = s)) ∨
      (t.ph = .stepWait ∧ t.lines = [] ∧ (t.stepping = true ∨ t = s))) : t.Inv opc := by
  have ht := hu.cycleInv h
  rcases hp with ⟨hph, -, hfires | rfl⟩ | ⟨hph, -, hstepping | rfl⟩
  · exact ht.inv_of_wait (by simp [hph]) (fun _ => hu.frame.breakpointFires.trans hfires)
      (by simp [hph]) (by simp [hph])
  · exact h
  · exact ht.inv_of_wait (by simp [hph]) (by simp [hph]) (fun _ => hstepping) (by simp [hph])
  · exact h

/-- Settles O45: each case of a step ends in LOAD, in IDLE or in a wait, by the lemma about
that phase. -/
theorem everyStepKeepsInv : Obligations.EveryStepKeepsInv := by
  intro opc s t h hstep
  cases StepNext.of_step hstep with
  | ended hrs ht => exact ht ▸ h
  | loads hrs hph ht => exact ht ▸ loadStep_inv h hrs hph
  | stops hrs hph hw ht =>
    have hs := h.runningInv hrs
    subst ht
    exact .of_idle hph hs.memWf hs.pcBound (h.noDumpPause (by simp [hph])) (fun _ => hw)
      (by simp [hs.noOut]) (by simp [hs.noFatal])
  | waits hu hp => exact hu.inv_of_waits h hp
  | illegal u hu hd ht =>
    have hc := hu.cycleInv h
    subst ht
    exact State.RunningInv.inv_of_idle
      ⟨hc.run, hc.memWf, hc.pcBound, by simp [hc.noOut], by simp [hc.noFatal]⟩ rfl
      hc.noDumpPause
  | instr u m hu hd hs =>
    have hfetch : fetchOpc (u.setPh .idle) = fetchOpc s := hu.frame.fetchOpc
    exact ((hu.cycleInv h).setPh .idle).inv_of_execShape rfl (hfetch ▸ hd) hs

theorem resetWith_inv (opc : OpcodeMap) {p : RunParams} (hmem : p.mem0.wf = true) :
    (State.resetWith p).Inv opc := by
  have hpc := (resetWith_pc_toNat p).trans_le p.start.isLt.le
  have hrunning : (State.resetWith p).RunningInv := ⟨rfl, hmem, hpc, rfl, rfl⟩
  exact hrunning.inv_of_load rfl nofun ⟨rfl, rfl⟩

/-- Settles O44: the default reset is one with a canonical MEM0. -/
theorem invHoldsAfterReset : Obligations.InvHoldsAfterReset :=
  ⟨resetWith_inv Config.opc reset_mem_wf, fun opc _ hmem => resetWith_inv opc hmem⟩

end Sys2Proof.Machine
end

section
/-!
The memory (20_memory R50 to R67): which cell an instruction writes, what a fetch returns
after a STORE, and the accesses that go out of range, of which the invariant leaves none.
-/

namespace Sys2Proof.Machine

variable {opc : OpcodeMap} {s t : State}

/-! ### Who writes memory (R66) -/

theorem sameMemory_of_mem_eq (h : t.mem = s.mem) : SameMemory s t :=
  fun addr => congrArg (Memory.read · addr) h

/-- R51: a write changes the byte of its own cell and no other. -/
theorem sameMemoryBut_of_mem_eq_write {cell v : Byte} (h : t.mem = s.mem.write cell v) :
    SameMemoryBut cell s t := by
  intro addr hne
  calc memRead addr t = (s.mem.write cell v).read addr := congrArg (Memory.read · addr) h
    _ = memRead addr s := (Memory.read_write s.mem cell v addr).trans (if_neg hne)

/-- R57, R66: an instruction leaves memory as it is, or is a STORE or an IN and writes the
target of its mode. -/
theorem ExecShape.mem_eq_or_write {m : Mnemonic} {opnd : Byte} (h : ExecShape m opnd s t) :
    t.mem = s.mem ∨
      ∃ v, ((m = .storeDir ∨ m = .inDir) ∧ t.mem = s.mem.write (target .dir opnd s) v) ∨
        ((m = .storeInd ∨ m = .inInd) ∧ t.mem = s.mem.write (target .ind opnd s) v) := by
  cases h with
  | store cell hf hc =>
    refine .inr ⟨s.a, ?_⟩
    rcases hc with ⟨hm, rfl⟩ | ⟨hm, rfl⟩
    · exact .inl ⟨.inl hm, rfl⟩
    · exact .inr ⟨.inl hm, rfl⟩
  | inByte cell b rest hf hi hc =>
    refine .inr ⟨b, ?_⟩
    rcases hc with ⟨hm, rfl⟩ | ⟨hm, rfl⟩
    · exact .inl ⟨.inr hm, rfl⟩
    · exact .inr ⟨.inr hm, rfl⟩
  | _ => exact .inl rfl

/-- Settles O22: outside the load phase only the instruction of a cycle writes memory, and
the hooks before it move neither the fetch nor the target. -/
theorem onlyStoreInAndLoaderWriteMemory : Obligations.OnlyStoreInAndLoaderWriteMemory := by
  intro opc s t hstep hload
  cases StepNext.of_step hstep with
  | ended hrs ht => exact .inl (sameMemory_of_mem_eq (congrArg State.mem ht))
  | loads hrs hph ht => exact absurd hph hload
  | stops hrs hph hw ht => exact .inl (sameMemory_of_mem_eq (by rw [ht, State.setRs_mem]))
  | waits hu hp => exact .inl (sameMemory_of_mem_eq hu.frame.mem)
  | illegal u hu hd ht =>
    exact .inl (sameMemory_of_mem_eq ((congrArg State.mem ht).trans hu.frame.mem))
  | instr u m hu hd hs =>
    have hmem : (u.setPh .idle).mem = s.mem := hu.frame.mem
    have hrow {n : Mnemonic} (hn : m = n) : decodeByte opc (fetchOpc s) = some n :=
      hd.trans (congrArg some hn)
    rcases hs.mem_eq_or_write with hsame | ⟨v, ⟨hm, hwrite⟩ | ⟨hm, hwrite⟩⟩
    · exact .inl (sameMemory_of_mem_eq (hsame.trans hmem))
    · rw [hmem, target_congr hmem] at hwrite
      exact .inr (.inl ⟨hm.imp hrow hrow, sameMemoryBut_of_mem_eq_write hwrite⟩)
    · rw [hmem, target_congr hmem] at hwrite
      exact .inr (.inr ⟨hm.imp hrow hrow, sameMemoryBut_of_mem_eq_write hwrite⟩)

/-! ### A store and the next fetch (R60, R64) -/

/-- R124: what STORE@ answers, in single-field updates. -/
theorem exec_storeDir (opnd : Byte) (s : State) :
    exec (.storeDir opnd) s = .next (((memWrite opnd s.a s).setPc (s.pc + 2)).emit
      (.narr s.pc .storeDir opnd s.a (some (opnd, s.a)))) := rfl

theorem memRead_of_exec_storeDir {opnd : Byte} (h : exec (.storeDir opnd) s = .next t)
    (addr : Byte) : memRead addr t = if addr = opnd then s.a else memRead addr s := by
  rw [exec_storeDir] at h
  cases h
  simp

/-- Settles O36: a fetch is a read of one cell, and STORE@ says what each cell reads as. -/
theorem storeIsSeenByTheNextFetch : Obligations.StoreIsSeenByTheNextFetch := by
  intro opnd s t h
  have hread := memRead_of_exec_storeDir h
  exact ⟨fun hopc => (hread _).trans (if_pos hopc), fun hopnd => (hread _).trans (if_pos hopnd),
    fun hother => (hread _).trans (if_neg hother)⟩

/-! ### Faults (R63, R242) -/

/-- R63, R182: a cycle that waits began in the run window, where both fetched cells are
cells of the memory. -/
theorem State.Inv.fetchable_of_wait (h : s.Inv opc)
    (hph : s.ph = .bpWait ∨ s.ph = .stepWait ∨ s.ph = .inWait) : fetchable s.pc = true :=
  fetchable_of_inWindow (h.waitsInWindow hph)

theorem engineStep_next (opc : OpcodeMap) (s : State) : ∃ t, engineStep opc s = .next t := by
  rcases engineStep_cases opc s with ⟨-, he⟩ | ⟨-, t, -, he, -⟩
  · exact ⟨_, he⟩
  · exact ⟨t, he⟩

theorem stepWith_aborted (opc : OpcodeMap) (h : s.aborted) :
    stepWith opc s = .fault .inputMalformed := by
  simp only [State.aborted] at h
  simp [stepWith, h]

/-- From a state with the invariant every step of a run that is not aborted answers a next
state: the one other fault needs a wait at an address that cannot be fetched. -/
theorem State.Inv.stepWith_next (h : s.Inv opc) (hrun : ¬ s.aborted) :
    ∃ t, stepWith opc s = .next t := by
  have hend := stepWith_cases opc s
  generalize stepWith opc s = o at hend
  cases hend with
  | aborted hrs => exact absurd hrs hrun
  | lost hrs hph hw => exact absurd (h.fetchable_of_wait hph) (by simp [hw])
  | engine u => exact engineStep_next opc u
  | _ => exact ⟨_, rfl⟩

/-- Settles O46: an aborted run answers its one fault, and any other state with the
invariant a next state. -/
theorem onlyAnAbortedRunFaults : Obligations.OnlyAnAbortedRunFaults := by
  intro opc s h
  by_cases habort : s.aborted
  · simp [stepWith_aborted opc habort, habort, eq_comm]
  · obtain ⟨t, ht⟩ := h.stepWith_next habort
    simp [ht, habort]

end Sys2Proof.Machine
end


section
/-!
The encoding family (30_encoding R80 to R87): the decoder and the encoder undo each
other, and how many bytes the decoder recognizes.
-/

namespace Sys2Proof

/-! ### Decoder and encoder (R80, R83) -/

@[simp] theorem Instr.ofMnemonic_mnemonic_operand (i : Instr) :
    Instr.ofMnemonic i.mnemonic i.operand = i := by
  cases i <;> rfl

/-- R83: with an injective map the decoder answers `m` for the byte of `m` and no other. -/
theorem decodeByte_eq_some_iff {opc : OpcodeMap} (h : opc.wellFormed = true) {b : Byte}
    {m : Mnemonic} : decodeByte opc b = some m ↔ opc m = b := by
  constructor
  · exact decodeByte_some
  · rintro rfl
    exact decodeByte_opc h m

/-- Settles O1: the first byte decodes to the row, and row and operand make up the
instruction. -/
theorem decodeOfEncodeIsIdentity : Obligations.DecodeOfEncodeIsIdentity := by
  intro opc hopc i rest _
  have hrow : decodeByte opc (opc i.mnemonic) = some i.mnemonic := decodeByte_opc hopc _
  simpa [encodeWith] using decodeWith_some (opnd := i.operand) (rest := rest) hrow

/-- Settles O2: only two bytes or more decode, and then the first is the opcode of the row
and the second the operand. -/
theorem decodedBytesAreTheEncoding : Obligations.DecodedBytesAreTheEncoding := by
  intro opc bytes i rest h
  match bytes, h with
  | b :: opnd :: bytes, h =>
    obtain ⟨m, hm, rfl, rfl⟩ := decodeWith_ok h
    simp [encodeWith, decodeByte_some hm]

/-- Settles O3: for a row the map's injectivity is needed, for UNRECOGNIZED it is not. -/
theorem decodeByteMatchesTheTable : Obligations.DecodeByteMatchesTheTable :=
  fun _ hopc _ => ⟨fun _ => decodeByte_eq_some_iff hopc, decodeByte_none⟩

/-! ### How many bytes are recognized (R87) -/

/-- The byte values that decode to an instruction, in rising order. -/
def recognizedBytes (opc : OpcodeMap) : List Nat :=
  (List.range 256).filter (fun n => decodeByte opc (BitVec.ofNat 8 n) != none)

/-- The byte values of the table's rows, in the order of R84. -/
def rowBytes (opc : OpcodeMap) : List Nat := (Mnemonic.all.map opc).map BitVec.toNat

theorem mem_recognizedBytes {opc : OpcodeMap} {n : Nat} :
    n ∈ recognizedBytes opc ↔ ∃ m, (opc m).toNat = n := by
  simp only [recognizedBytes, List.mem_filter, List.mem_range, bne_iff_ne, ne_eq,
    decodeByte_none, not_forall, not_not]
  constructor
  · rintro ⟨hn, m, hm⟩
    exact ⟨m, by simp [hm, Nat.mod_eq_of_lt hn]⟩
  · rintro ⟨m, rfl⟩
    exact ⟨(opc m).isLt, m, by simp⟩

theorem mem_rowBytes {opc : OpcodeMap} {n : Nat} :
    n ∈ rowBytes opc ↔ ∃ m, (opc m).toNat = n := by
  simp [rowBytes, Mnemonic.mem_all]

theorem nodup_rowBytes {opc : OpcodeMap} (h : opc.wellFormed = true) :
    (rowBytes opc).Nodup :=
  List.Nodup.map (fun _ _ => BitVec.eq_of_toNat_eq) (of_decide_eq_true h)

/-- The recognized bytes are the rows' bytes in another order, so there are 22. -/
theorem length_recognizedBytes {opc : OpcodeMap} (h : opc.wellFormed = true) :
    (recognizedBytes opc).length = 22 := by
  have hnodup : (recognizedBytes opc).Nodup := List.nodup_range.filter _
  have hperm : (recognizedBytes opc).Perm (rowBytes opc) :=
    (List.perm_ext_iff_of_nodup hnodup (nodup_rowBytes h)).2
      fun _ => mem_recognizedBytes.trans mem_rowBytes.symm
  simpa [rowBytes, Mnemonic.all] using hperm.length_eq

/-- Settles O4: the bytes that are not recognized are what the 22 recognized ones leave of
the 256. -/
theorem unrecognizedBytesAre234 : Obligations.UnrecognizedBytesAre234 := by
  intro opc hopc
  have hsplit := List.length_eq_length_filter_add (l := List.range 256)
    (fun n => decodeByte opc (BitVec.ofNat 8 n) == none)
  have hrecognized : ((List.range 256).filter
      (fun n => !(decodeByte opc (BitVec.ofNat 8 n) == none))).length = 22 :=
    length_recognizedBytes hopc
  rw [List.length_range, hrecognized] at hsplit
  omega

/-! ### The default table (R85) -/

/-- Settles O5: each word is looked up in the default table. -/
theorem defaultTableWordsDecode : Obligations.DefaultTableWordsDecode :=
  ⟨rfl, rfl, rfl, rfl, rfl, rfl, rfl, rfl, rfl, rfl, rfl⟩

end Sys2Proof
end

section
/-!
The ALU family (40_alu R100 to R111): the laws of the three operations, and what ADD, SUB
and NAND do in their three modes. Each is `aluMeaning` of one operation, so the completion,
the frame and the value in A are proved once, for every operation and mode.
-/

namespace Sys2Proof.Machine

variable {i : Instr} {m : Mnemonic} {opnd : Byte} {s : State}

/-! ### The laws of the operations (R110) -/

theorem aluAdd_toNat (a v : Byte) : (aluAdd a v).toNat = (a.toNat + v.toNat) % 256 :=
  BitVec.toNat_add a v

theorem aluAdd_toInt (a v : Byte) : (aluAdd a v).toInt = (a.toInt + v.toInt).bmod 256 :=
  BitVec.toInt_add a v

theorem aluSub_toNat (a v : Byte) : (aluSub a v).toNat = (a.toNat + 256 - v.toNat) % 256 := by
  have hsub : (aluSub a v).toNat = (256 - v.toNat + a.toNat) % 256 := BitVec.toNat_sub a v
  have hv : v.toNat < 256 := v.isLt
  rw [hsub]
  congr 1
  omega

theorem aluSub_toInt (a v : Byte) : (aluSub a v).toInt = (a.toInt - v.toInt).bmod 256 :=
  BitVec.toInt_sub

/-- Two's complement: the negation of `v` is `~v + 1`. -/
theorem aluSub_eq_aluAdd_not (a v : Byte) : aluSub a v = aluAdd (aluAdd a (~~~v)) 1 :=
  calc a - v = a + -v := BitVec.sub_eq_add_neg a v
    _ = a + (~~~v + 1) := congrArg (a + ·) (BitVec.neg_eq_not_add v)
    _ = a + ~~~v + 1 := (BitVec.add_assoc a (~~~v) 1).symm

theorem aluNand_getLsbD (a v : Byte) {k : Nat} (hk : k < 8) :
    (aluNand a v).getLsbD k = !(a.getLsbD k && v.getLsbD k) := by
  simp [aluNand, hk]

/-- Settles O10: the laws of the three operations together. -/
theorem arithmeticWrapsModulo256 : Obligations.ArithmeticWrapsModulo256 := fun a v =>
  ⟨aluAdd_toNat a v, aluAdd_toInt a v, aluSub_toNat a v, aluSub_toInt a v,
    aluSub_eq_aluAdd_not a v, fun _ => aluNand_getLsbD a v⟩

/-! ### Encoding, completion and frame (R80, R100, R120) -/

/-- R80, R83: the opcode of an instruction's row and its operand decode to it. -/
theorem encodedAs (i : Instr) : EncodedAs i i.mnemonic i.operand := by
  intro opc hopc
  simpa using decodeWith_some (opnd := i.operand) (rest := []) (decodeByte_opc hopc i.mnemonic)

theorem Completes.mono {P Q : State → Prop} (h : Completes i s P) (hPQ : ∀ t, P t → Q t) :
    Completes i s Q := by
  obtain ⟨t, hexec, ht⟩ := h
  exact ⟨t, hexec, hPQ t ht⟩

/-- The next state of an accumulator instruction differs from the state in A, the PC and one
narration. -/
theorem accEffect (m : Mnemonic) (opnd v : Byte) (s : State) :
    AccEffect m opnd s
      (((s.setA v).setPc (s.pc + 2)).emit (.narr s.pc m opnd v none)) := by
  simp [AccEffect, SameButAPc, SameMemory, SameSequencer, SameDebug, SameOtherQueues]

/-- R100: what the nine have in common, for every operation and mode. -/
theorem completes_alu {f : Byte → Byte → Byte} (mode : Mode)
    (hexec : exec i s = aluMeaning f m mode opnd s) :
    Completes i s (fun t => t.a = f s.a (value mode opnd s) ∧ AccEffect m opnd s t) :=
  ⟨_, hexec, rfl, accEffect m opnd _ s⟩

/-! ### ADD, SUB and NAND (R101 to R109) -/

theorem completes_add (mode : Mode) (hexec : exec i s = aluMeaning aluAdd m mode opnd s) :
    Completes i s (fun t => t.a.toNat = (s.a.toNat + (value mode opnd s).toNat) % 256 ∧
      AccEffect m opnd s t) :=
  (completes_alu mode hexec).mono fun _ ⟨ha, heffect⟩ => ⟨ha ▸ aluAdd_toNat _ _, heffect⟩

theorem completes_sub (mode : Mode) (hexec : exec i s = aluMeaning aluSub m mode opnd s) :
    Completes i s (fun t => t.a.toNat = (s.a.toNat + 256 - (value mode opnd s).toNat) % 256 ∧
      AccEffect m opnd s t) :=
  (completes_alu mode hexec).mono fun _ ⟨ha, heffect⟩ => ⟨ha ▸ aluSub_toNat _ _, heffect⟩

theorem completes_nand (mode : Mode) (hexec : exec i s = aluMeaning aluNand m mode opnd s) :
    Completes i s (fun t =>
      (∀ k, k < 8 → t.a.getLsbD k = !(s.a.getLsbD k && (value mode opnd s).getLsbD k)) ∧
        AccEffect m opnd s t) :=
  (completes_alu mode hexec).mono fun _ ⟨ha, heffect⟩ =>
    ⟨fun _ hk => ha ▸ aluNand_getLsbD _ _ hk, heffect⟩

/-- Settles O11: the three forms are ADD of the value their mode names. -/
theorem addAddsItsValueToA : Obligations.AddAddsItsValueToA := fun opnd _ =>
  ⟨encodedAs (.addImm opnd), encodedAs (.addDir opnd), encodedAs (.addInd opnd),
    completes_add .imm rfl, completes_add .dir rfl, completes_add .ind rfl⟩

/-- Settles O12: the three forms are SUB of the value their mode names. -/
theorem subSubtractsItsValueFromA : Obligations.SubSubtractsItsValueFromA := fun opnd _ =>
  ⟨encodedAs (.subImm opnd), encodedAs (.subDir opnd), encodedAs (.subInd opnd),
    completes_sub .imm rfl, completes_sub .dir rfl, completes_sub .ind rfl⟩

/-- Settles O13: the three forms are NAND with the value their mode names. -/
theorem nandComplementsTheConjunction : Obligations.NandComplementsTheConjunction :=
  fun opnd _ =>
  ⟨encodedAs (.nandImm opnd), encodedAs (.nandDir opnd), encodedAs (.nandInd opnd),
    completes_nand .imm rfl, completes_nand .dir rfl, completes_nand .ind rfl⟩

end Sys2Proof.Machine
end

section
/-!
The transfer family (41_transfer R120 to R126): LOAD copies a value into A, STORE copies A
into one cell. Each is one meaning under a mode, so the completion and the frame are proved
once, for every mode.
-/

namespace Sys2Proof.Machine

variable {i : Instr} {m : Mnemonic} {opnd : Byte} {s : State}

/-! ### LOAD (R120 to R123) -/

/-- R120: what the three LOADs have in common, for every mode. -/
theorem completes_load (mode : Mode) (hexec : exec i s = loadMeaning m mode opnd s) :
    Completes i s (fun t => t.a = value mode opnd s ∧ AccEffect m opnd s t) :=
  ⟨_, hexec, rfl, accEffect m opnd _ s⟩

/-- Settles O14: the three forms are LOAD of the value their mode names. -/
theorem loadCopiesItsValueIntoA : Obligations.LoadCopiesItsValueIntoA := fun opnd _ =>
  ⟨encodedAs (.loadImm opnd), encodedAs (.loadDir opnd), encodedAs (.loadInd opnd),
    completes_load .imm rfl, completes_load .dir rfl, completes_load .ind rfl⟩

/-! ### STORE (R120, R124, R125) -/

/-- The next state of a storing instruction differs from the state in the cell, the PC and
one narration. -/
theorem storeEffect (m : Mnemonic) (opnd cell v : Byte) (s : State) :
    StoreEffect m opnd cell v s (((memWrite cell v s).setPc (s.pc + 2)).emit
      (.narr s.pc m opnd s.a (some (cell, v)))) :=
  ⟨by simp, sameMemoryBut_of_mem_eq_write rfl, by simp [SameDebug, SameOtherQueues]⟩

/-- R120: what the two STOREs have in common, for every mode. The target is that of the
state before the write (R125). -/
theorem completes_store (mode : TargetMode) (hexec : exec i s = storeMeaning m mode opnd s) :
    Completes i s (fun t => StoreEffect m opnd (target mode opnd s) s.a s t ∧
      t.ph = s.ph ∧ t.inItems = s.inItems) :=
  ⟨_, hexec, storeEffect m opnd _ s.a s, rfl, rfl⟩

/-- Settles O15: the two forms are STORE to the cell their mode names. -/
theorem storeWritesOneCell : Obligations.StoreWritesOneCell := fun opnd _ =>
  ⟨encodedAs (.storeDir opnd), encodedAs (.storeInd opnd),
    completes_store .dir rfl, completes_store .ind rfl⟩

end Sys2Proof.Machine
end

section
/-!
The input and output family (42_io R130 to R141): what IN does with each head of the input
stream, and what OUT emits before it halts. All forms of a family are one meaning under a
mode, so the effect and the frame are proved once, for every mode.
-/

namespace Sys2Proof.Machine

variable {i : Instr} {m : Mnemonic} {opnd b : Byte} {rest : List InputItem} {s : State}

/-! ### IN: one equation per head of the input stream (R131 to R134) -/

/-- R131: without an item IN writes the phase alone. -/
theorem inMeaning_empty (mode : TargetMode) (h : s.inItems = []) :
    inMeaning m mode opnd s = .next (s.setPh .inWait) := by
  simp [inMeaning, inputByte_empty h]

/-- R132, R133: with a byte IN is a store of it, from the state that has taken the item and
is back in phase IDLE. -/
theorem inMeaning_byte (mode : TargetMode) (h : s.inItems = .byte b :: rest) :
    inMeaning m mode opnd s = .next
      (((memWrite (target mode opnd s) b ((s.setInItems rest).setPh .idle)).setPc
        (s.pc + 2)).emit (.narr s.pc m opnd s.a (some (target mode opnd s, b)))) := by
  simp only [inMeaning, inputByte_byte h]
  rfl

/-- R134: with a malformed item IN takes it and aborts the run. -/
theorem inMeaning_malformed (mode : TargetMode) (h : s.inItems = .malformed :: rest) :
    inMeaning m mode opnd s = .next
      ((((s.setInItems rest).setPh .idle).emit .fatalInputMalformed).setRs .fatalInput) := by
  simp [inMeaning, inputByte_malformed h]

/-- The two forms of IN differ in row and mode only. -/
theorem exec_eq_inMeaning (h : i = .inDir opnd ∨ i = .inInd opnd) (s : State) :
    ∃ m mode, exec i s = inMeaning m mode opnd s := by
  rcases h with rfl | rfl
  · exact ⟨.inDir, .dir, rfl⟩
  · exact ⟨.inInd, .ind, rfl⟩

/-! ### IN: its effect -/

/-- R132, R133: what the two forms have in common with a byte there. A store's effect says
nothing of the phase and the input items, which IN writes beside it. -/
theorem completes_in (mode : TargetMode) (hitems : s.inItems = .byte b :: rest)
    (hexec : exec i s = inMeaning m mode opnd s) :
    Completes i s (fun t => StoreEffect m opnd (target mode opnd s) b s t ∧
      t.ph = .idle ∧ t.inItems = rest) :=
  ⟨_, hexec.trans (inMeaning_byte mode hitems),
    storeEffect m opnd (target mode opnd s) b ((s.setInItems rest).setPh .idle), rfl, rfl⟩

/-- Settles O16: the two forms are IN to the cell their mode names. -/
theorem inStoresTheInputByte : Obligations.InStoresTheInputByte := fun opnd _ _ _ hitems =>
  ⟨encodedAs (.inDir opnd), encodedAs (.inInd opnd),
    completes_in .dir hitems rfl, completes_in .ind hitems rfl⟩

/-- Settles O17: the abort writes the fields named and no other, and every run from the
aborted state ends at its first step. -/
theorem malformedInputAborts : Obligations.MalformedInputAborts := by
  intro opc opnd rest s i hitems hi
  obtain ⟨m, mode, hexec⟩ := exec_eq_inMeaning hi s
  refine ⟨_, hexec.trans (inMeaning_malformed mode hitems), rfl, rfl, sameMemory_of_mem_eq rfl,
    rfl, rfl, rfl, rfl, ?debug, ?queues, rfl, runWith_succ_fault (stepWith_aborted opc rfl)⟩
  case debug => simp [SameDebug]
  case queues => simp [SameOtherQueues]

/-- Settles O18: the wait writes the phase and no other field. -/
theorem inWithoutItemWaits : Obligations.InWithoutItemWaits := by
  intro opnd s i hitems hi
  obtain ⟨m, mode, hexec⟩ := exec_eq_inMeaning hi s
  refine ⟨_, hexec.trans (inMeaning_empty mode hitems), rfl, rfl, sameMemory_of_mem_eq rfl,
    rfl, rfl, rfl, rfl, ?debug, ?queues, hitems⟩
  case debug => simp [SameDebug]
  case queues => simp [SameOtherQueues]

/-! ### OUT (R136 to R140) -/

/-- R136, R140: the value, the narration, the halt, and nothing else. The PC is no part of
the effect, so a form may write it afterwards. -/
theorem outEffect (m : Mnemonic) (mode : Mode) (opnd : Byte) (s : State) (pc : PcWord) :
    OutEffect m opnd (value mode opnd s) s ((outEmit m mode opnd s).setPc pc) := by
  simp [outEmit, OutEffect, SameMemory, SameDebug, SameOtherQueues]

/-- R136: what the three OUTs have in common, for every mode and every PC they leave. -/
theorem completes_out (mode : Mode) (pc : PcWord)
    (hexec : exec i s = .next ((outEmit m mode opnd s).setPc pc)) :
    Completes i s (fun t => OutEffect m opnd (value mode opnd s) s t ∧ t.pc = pc) :=
  ⟨_, hexec, outEffect m mode opnd s pc, rfl⟩

/-- Settles O19: the three forms are OUT of the value their mode names; only OUT*@ leaves
another PC than the one it found. -/
theorem outEmitsAndHalts : Obligations.OutEmitsAndHalts := fun opnd s =>
  ⟨encodedAs (.outImm opnd), encodedAs (.outDir opnd), encodedAs (.outInd opnd),
    completes_out .imm s.pc rfl, completes_out .dir s.pc rfl,
    completes_out .ind (s.pc + 2) rfl⟩

end Sys2Proof.Machine
end

section
/-!
The control family (43_control R150 to R155): what JUMP, BRN and BRZ make of the PC, and the
livelock on an unrecognized byte. A step of the livelock goes through the hooks of a cycle
and the diagnostic alone, and neither moves the PC or the byte it points at, so the livelock
goes on.
-/

namespace Sys2Proof.Machine

variable {opc : OpcodeMap} {i : Instr} {m : Mnemonic} {opnd : Byte} {n k : Nat} {s t u : State}

/-! ### The branch conditions (R25) -/

theorem isNegative_iff_getLsbD (a : Byte) : isNegative a = true ↔ a.getLsbD 7 = true := by
  have htwoPow : Config.sign = BitVec.twoPow 8 7 := rfl
  simp only [isNegative, htwoPow, BitVec.and_twoPow, bne_iff_ne]
  cases a.getLsbD 7 <;> decide

theorem isNegative_iff_toInt_neg (a : Byte) : isNegative a = true ↔ a.toInt < 0 := by
  rw [isNegative_iff_getLsbD, ← BitVec.msb_eq_getLsbD_last a, BitVec.msb_eq_toInt,
    decide_eq_true_iff]

theorem isZero_iff_toNat_eq_zero (a : Byte) : isZero a = true ↔ a.toNat = 0 := by
  simp [isZero, BitVec.toNat_eq]

/-! ### Control transfer (R150 to R154) -/

/-- R153: what the transfers have in common, for every PC they leave. -/
theorem completes_transfer (pc : PcWord)
    (hexec : exec i s = .next ((s.setPc pc).emit (.narr s.pc m opnd s.a none))) :
    Completes i s (TransferEffect m opnd pc s) :=
  ⟨_, hexec, by
    simp [TransferEffect, SameButAPc, SameMemory, SameSequencer, SameDebug, SameOtherQueues]⟩

theorem branchMeaning_eq {c : Prop} [Decidable c] {taken : Bool} (hc : taken = true ↔ c) :
    branchMeaning taken m opnd s = .next
      ((s.setPc (if c then opnd.setWidth 9 else s.pc + 2)).emit
        (.narr s.pc m opnd s.a none)) := by
  by_cases h : c
  · rw [hc.2 h, if_pos h]
    rfl
  · rw [Bool.eq_false_of_not_eq_true (mt hc.1 h), if_neg h]
    rfl

/-- R151, R152: what the two branches have in common, for every reading `c` of their
condition. -/
theorem completes_branch {c : Prop} [Decidable c] {taken : Bool} (hc : taken = true ↔ c)
    (hexec : exec i s = branchMeaning taken m opnd s) :
    Completes i s (TransferEffect m opnd (if c then opnd.setWidth 9 else s.pc + 2) s) :=
  completes_transfer _ (hexec.trans (branchMeaning_eq hc))

/-- Settles O20: JUMP@ is a transfer without condition, and BRN@ tests one bit that has two
readings. -/
theorem transfersReplaceThePc : Obligations.TransfersReplaceThePc := fun opnd s =>
  ⟨encodedAs (.jumpDir opnd), encodedAs (.brnDir opnd), encodedAs (.brzDir opnd),
    completes_transfer _ rfl,
    completes_branch (isNegative_iff_getLsbD s.a) rfl,
    completes_branch (isNegative_iff_toInt_neg s.a) rfl,
    completes_branch (isZero_iff_toNat_eq_zero s.a) rfl⟩

/-! ### What the livelock holds (R155) -/

/-- PC, A, memory and RS are unchanged: what no step of the livelock writes. -/
structure Held (s t : State) : Prop where
  pc : t.pc = s.pc
  a : t.a = s.a
  mem : t.mem = s.mem
  rs : t.rs = s.rs

theorem Held.refl (s : State) : Held s s := ⟨rfl, rfl, rfl, rfl⟩

theorem Held.trans (h : Held s u) (h' : Held u t) : Held s t :=
  ⟨h'.pc.trans h.pc, h'.a.trans h.a, h'.mem.trans h.mem, h'.rs.trans h.rs⟩

theorem HookFrame.held (h : HookFrame s u) : Held s u := ⟨h.pc, h.a, h.mem, h.rs⟩

/-- The state the engine step leaves on the unrecognized byte `b`: back in phase IDLE, with
the diagnostic appended. -/
def afterIllegal (b : Byte) (u : State) : State := (u.setPh .idle).emit (.illegal u.pc b)

theorem held_afterIllegal (b : Byte) (u : State) : Held u (afterIllegal b u) :=
  ⟨rfl, rfl, rfl, rfl⟩

/-- The hooks of a cycle move neither the PC nor the byte there, so the engine step after
them is the diagnostic of the byte the cycle began on. -/
theorem engineStep_afterIllegal (hd : decodeByte opc (fetchOpc s) = none)
    (hf : HookFrame s u) : engineStep opc u = .next (afterIllegal (fetchOpc s) u) := by
  have hdu : decodeByte opc (fetchOpc u) = none := hf.fetchOpc ▸ hd
  rw [engineStep_none hdu, hf.fetchOpc]
  rfl

/-! ### Every step of the livelock, answered or not -/

/-- The livelock of R155 in every phase of a cycle, so that a wait is part of it. -/
structure State.Stuck (opc : OpcodeMap) (s : State) : Prop where
  run : s.rs = .run
  notLoad : s.ph ≠ .load
  window : inWindow s.pc = true
  unrecognized : decodeByte opc (fetchOpc s) = none

theorem State.livelocked_iff : s.livelocked opc ↔ s.Stuck opc ∧ s.ph = .idle :=
  ⟨fun ⟨hrs, hph, hw, hd⟩ => ⟨⟨hrs, by simp [hph], hw, hd⟩, hph⟩,
    fun ⟨hstuck, hph⟩ => ⟨hstuck.run, hph, hstuck.window, hstuck.unrecognized⟩⟩

theorem State.Stuck.of_held (h : s.Stuck opc) (ht : Held s t) (hph : t.ph ≠ .load) :
    t.Stuck opc where
  run := ht.rs.trans h.run
  notLoad := hph
  window := ht.pc ▸ h.window
  unrecognized := fetchOpc_congr ht.pc ht.mem ▸ h.unrecognized

/-- A step of the livelock runs the diagnostic or waits for the host. -/
theorem State.Stuck.stepWith_next (h : s.Stuck opc) :
    ∃ t, stepWith opc s = .next t ∧ Held s t ∧ t.Stuck opc := by
  have hend := stepWith_cases opc s
  generalize stepWith opc s = o at hend
  cases hend with
  | aborted hrs => simp [h.run] at hrs
  | ended hrs => simp [h.run] at hrs
  | loads hrs hph => exact absurd hph h.notLoad
  | stops hrs hph hw => simp [h.window] at hw
  | lost hrs hph hw => simp [fetchable_of_inWindow h.window] at hw
  | engine u hrs hph hw hi hf =>
    have hheld := hf.held.trans (held_afterIllegal (fetchOpc s) u)
    exact ⟨_, engineStep_afterIllegal h.unrecognized hf, hheld, h.of_held hheld nofun⟩
  | waits u hrs hph hw hi hf hc hv hu =>
    have hwait : u.ph ≠ .load := by rcases hu with ⟨hph, -⟩ | ⟨hph, -⟩ <;> simp [hph]
    exact ⟨u, rfl, hf.held, h.of_held hf.held hwait⟩

theorem State.Stuck.runWith_next (h : s.Stuck opc) (n : Nat) :
    ∃ t, runWith opc n s = .next t ∧ Held s t := by
  induction n generalizing s with
  | zero => exact ⟨s, rfl, .refl s⟩
  | succ n ih =>
    obtain ⟨u, hstep, hu, hstuck⟩ := h.stepWith_next
    obtain ⟨t, hrun, ht⟩ := ih hstuck
    exact ⟨t, (runWith_succ_next hstep n).trans hrun, hu.trans ht⟩

/-! ### Whole cycles of the livelock -/

/-- What `n` whole cycles of the livelock make of a state. -/
structure LivelockCycles (n : Nat) (s t : State) : Prop extends Held s t where
  ph : t.ph = s.ph
  cyc : t.cyc = s.cyc + n
  inItems : t.inItems = s.inItems
  datapath : datapathEvents t =
    datapathEvents s ++ List.replicate n (.illegal s.pc (fetchOpc s))

theorem LivelockCycles.zero (s : State) : LivelockCycles 0 s s :=
  ⟨.refl s, rfl, rfl, rfl, by simp⟩

theorem LivelockCycles.trans (h : LivelockCycles n s u) (h' : LivelockCycles k u t) :
    LivelockCycles (n + k) s t where
  toHeld := h.toHeld.trans h'.toHeld
  ph := h'.ph.trans h.ph
  cyc := by rw [h'.cyc, h.cyc, Nat.add_assoc]
  inItems := h'.inItems.trans h.inItems
  datapath := by
    rw [h'.datapath, h.datapath, fetchOpc_congr h.pc h.mem, h.pc, List.replicate_add,
      List.append_assoc]

/-- The hooks of a new cycle and the diagnostic after them are one cycle of the livelock. -/
theorem InCycle.livelockCycle (h : InCycle s u) (hph : s.ph = .idle) :
    LivelockCycles 1 s (afterIllegal (fetchOpc s) u) where
  toHeld := h.frame.held.trans (held_afterIllegal _ u)
  ph := hph.symm
  cyc := h.cyc.trans (if_pos hph)
  inItems := h.frame.inItems
  datapath := by
    obtain ⟨-, -, hevents⟩ := h.frame.eventCounts
    simp [afterIllegal, hevents, h.frame.pc]

/-- With the host's answers there, a step of the livelock is a whole cycle and takes at most
one answer of each kind. -/
theorem State.livelocked.stepWith_cycle (h : s.livelocked opc) (hans : s.answered) :
    ∃ t, stepWith opc s = .next t ∧ LivelockCycles 1 s t ∧
      s.resumes ≤ t.resumes + 1 ∧ s.lines.length ≤ t.lines.length + 1 := by
  obtain ⟨hrs, hph, hw, hd⟩ := h
  obtain ⟨u, hu, hstep, hresumes, hlines⟩ :=
    stepWith_answered opc hrs hph hw hans.1 hans.2
  exact ⟨_, hstep.trans (engineStep_afterIllegal hd hu.frame), hu.livelockCycle hph, hresumes,
    hlines⟩

theorem State.livelocked.of_cycles (h : s.livelocked opc) (ht : LivelockCycles n s t) :
    t.livelocked opc := by
  obtain ⟨hstuck, hph⟩ := State.livelocked_iff.1 h
  have hidle := ht.ph.trans hph
  exact State.livelocked_iff.2 ⟨hstuck.of_held ht.toHeld (by simp [hidle]), hidle⟩

/-- One answer of each kind is enough for the next cycle. -/
theorem State.answered_of_pos (hr : 0 < s.resumes) (hl : 0 < s.lines.length) : s.answered :=
  ⟨fun _ => hr, fun _ => List.length_pos_iff.1 hl⟩

theorem State.livelocked.runWith_cycles (h : s.livelocked opc) (hr : n ≤ s.resumes)
    (hl : n ≤ s.lines.length) : ∃ t, runWith opc n s = .next t ∧ LivelockCycles n s t := by
  induction n generalizing s with
  | zero => exact ⟨s, rfl, .zero s⟩
  | succ n ih =>
    have hans := State.answered_of_pos (by omega) (by omega : 0 < s.lines.length)
    obtain ⟨u, hstep, hu, hur, hul⟩ := h.stepWith_cycle hans
    obtain ⟨t, hrun, ht⟩ := ih (h.of_cycles hu) (by omega) (by omega)
    exact ⟨t, (runWith_succ_next hstep n).trans hrun, Nat.add_comm 1 n ▸ hu.trans ht⟩

/-- Settles O35: whatever the host does, the run stays in the livelock of some phase; with its
answers there, every step is one whole cycle of it. -/
theorem unrecognizedOpcodeRunsForEver : Obligations.UnrecognizedOpcodeRunsForEver := by
  intro opc n s h
  obtain ⟨hstuck, hph⟩ := State.livelocked_iff.1 h
  constructor
  · obtain ⟨t, hrun, ht⟩ := hstuck.runWith_next n
    exact ⟨t, hrun, ht.pc, ht.a, ht.mem, ht.rs.trans hstuck.run⟩
  · intro hr hl
    obtain ⟨t, hrun, ht⟩ := h.runWith_cycles hr hl
    exact ⟨t, hrun, ht.pc, ht.a, ht.mem, ht.rs.trans hstuck.run, ht.ph.trans hph, ht.cyc,
      ht.inItems, ht.datapath⟩

end Sys2Proof.Machine
end

section
/-!
One step of the run loop (44_runloop R170 to R184): what it emits, how it ends a run, and
what a whole cycle with its answers there comes to. What an instruction emits is said once,
in `InstrEvents`, with the run state it leaves.
-/

namespace Sys2Proof.Machine

variable {opc : OpcodeMap} {i : Instr} {m : Mnemonic} {opnd : Byte} {new : List Event}
  {s t u : State}

/-! ### The window test (R171, R177) -/

/-- Settles O33: such a PC is outside the run window. -/
theorem windowTestEndsTheRun : Obligations.WindowTestEndsTheRun :=
  fun opc s hrs hph hpc => stepWith_outside opc hrs hph ((inWindow_false_iff s.pc).2 hpc)

theorem loadStep_run {rest : List LoadMove} (hpause : s.dumpPause = false)
    (hloads : s.loads = .run :: rest) : loadStep s = (s.setLoads rest).setPh .idle := by
  simp [loadStep, hpause, hloads]

/-- Settles O9: the loader's `run` is the first step, and the window test the second. -/
theorem startOutsideWindowRunsNoCycle : Obligations.StartOutsideWindowRunsNoCycle := by
  intro opc p hstart
  have hpc := resetWith_pc_toNat p
  have hwindow : inWindow (State.resetWith p).pc = false := (inWindow_false_iff _).2 (by omega)
  have hload : stepWith opc ((State.resetWith p).setLoads [.run]) =
      .next ((State.resetWith p).setPh .idle) :=
    (stepWith_load opc rfl rfl).trans (congrArg _ (loadStep_run rfl rfl))
  have hstop := stepWith_outside opc (s := (State.resetWith p).setPh .idle) rfl rfl hwindow
  exact ⟨_, (runWith_succ_next hload 1).trans (runWith_succ_next hstop 0), rfl, rfl, rfl, hpc,
    rfl, fun _ => rfl⟩

/-! ### What an instruction emits (R179, R180) -/

/-- The events `new` an instruction of row `m` emits between `s` and `t`, and the run state
that goes with them. -/
inductive InstrEvents (m : Mnemonic) (opnd : Byte) (s t : State) : List Event → Prop where
  /-- An IN that waits (R131). -/
  | silent (hrs : t.rs = s.rs) : InstrEvents m opnd s t []
  /-- An instruction that completes and goes on (R179). -/
  | narrates (w : Option (Byte × Byte)) (hrs : t.rs = s.rs) :
      InstrEvents m opnd s t [.narr s.pc m opnd t.a w]
  /-- OUT (R140). -/
  | outputs (v : Byte) (hf : m.family = .output) (hrs : t.rs = .haltOut) :
      InstrEvents m opnd s t [.out v, .narr s.pc m opnd s.a none]
  /-- IN with a malformed item (R134). -/
  | aborts (hf : m.family = .input) (hi : s.inItems.head? = some .malformed)
      (hrs : t.rs = .fatalInput) (hpc : t.pc = s.pc) (ha : t.a = s.a) (hmem : t.mem = s.mem) :
      InstrEvents m opnd s t [.fatalInputMalformed]

theorem ExecShape.events (h : ExecShape m opnd s t) :
    ∃ new, t.events = s.events ++ new ∧ InstrEvents m opnd s t new := by
  cases h with
  | acc v hf => exact ⟨_, rfl, .narrates none rfl⟩
  | store cell hf hc => exact ⟨_, rfl, .narrates (some (cell, s.a)) rfl⟩
  | inWaits hf hi => exact ⟨[], (List.append_nil _).symm, .silent rfl⟩
  | inByte cell b rest hf hi hc => exact ⟨_, rfl, .narrates (some (cell, b)) rfl⟩
  | inMalformed rest hf hi => exact ⟨_, rfl, .aborts hf (by simp [hi]) rfl rfl rfl rfl⟩
  | out v pc hf hpc => exact ⟨_, List.append_assoc _ _ _, .outputs v hf rfl⟩
  | transfer pc hf hpc => exact ⟨_, rfl, .narrates none rfl⟩

/-- What an instruction emits is read the same way before the hooks of its cycle. -/
theorem InstrEvents.of_hookFrame (hf : HookFrame s u)
    (h : InstrEvents m opnd (u.setPh .idle) t new) : InstrEvents m opnd s t new := by
  have hpc : (u.setPh .idle).pc = s.pc := hf.pc
  have ha : (u.setPh .idle).a = s.a := hf.a
  cases h with
  | silent hrs => exact .silent (hrs.trans hf.rs)
  | narrates w hrs => exact hpc ▸ .narrates w (hrs.trans hf.rs)
  | outputs v hfam hrs => exact hpc ▸ ha ▸ .outputs v hfam hrs
  | aborts hfam hi hrs hpc' ha' hmem =>
    exact .aborts hfam (hf.inItems ▸ hi) hrs (hpc'.trans hpc) (ha'.trans ha) (hmem.trans hf.mem)

/-- The instruction of a cycle appends its events to those of the hooks. -/
theorem InCycle.events_of_execShape (hu : InCycle s u)
    (hs : ExecShape m opnd (u.setPh .idle) t) :
    ∃ new, t.events = u.events ++ new ∧ InstrEvents m opnd s t new := by
  obtain ⟨new, hnew, h⟩ := hs.events
  exact ⟨new, hnew, h.of_hookFrame hu.frame⟩

/-- R180: all of them are the datapath's. -/
theorem InstrEvents.filter_isDatapath (h : InstrEvents m opnd s t new) :
    new.filter Event.isDatapath = new := by
  cases h <;> rfl

/-! ### What a step emits (R180) -/

/-- Settles O25: the hooks of a cycle append, and so does its engine step. -/
theorem eventsAreOnlyAppended : Obligations.EventsAreOnlyAppended := by
  intro opc s t hstep
  cases StepNext.of_step hstep with
  | ended hrs ht => exact ⟨[], by simp [ht]⟩
  | loads hrs hph ht =>
    obtain ⟨-, -, -, -, -, -, -, -, -, new, hnew, -⟩ := loadStep_keeps s
    exact ⟨new, ht ▸ hnew⟩
  | stops hrs hph hw ht => exact ⟨[], by simp [ht]⟩
  | waits hu hp =>
    obtain ⟨new, hnew, -⟩ := hu.frame.events
    exact ⟨new, hnew⟩
  | illegal u hu hd ht =>
    obtain ⟨hooks, hhooks, -⟩ := hu.frame.events
    exact ⟨hooks ++ [.illegal s.pc (fetchOpc s)], by simp [ht, hhooks]⟩
  | instr u m hu hd hs =>
    obtain ⟨hooks, hhooks, -⟩ := hu.frame.events
    obtain ⟨new, hnew, -⟩ := hu.events_of_execShape hs
    exact ⟨hooks ++ new, by rw [hnew, hhooks, List.append_assoc]⟩

theorem loadStep_datapathEvents (s : State) :
    datapathEvents (loadStep s) = datapathEvents s := by
  obtain ⟨-, -, -, -, -, -, -, -, -, new, hnew, hdebug⟩ := loadStep_keeps s
  obtain ⟨-, -, hfilter⟩ := Event.debug_append (l := s.events) hdebug
  exact (congrArg _ hnew).trans hfilter

/-- The hooks of a cycle emit nothing of the datapath's, its instruction nothing else. -/
theorem InCycle.datapathEvents_of_execShape (hu : InCycle s u)
    (hs : ExecShape m opnd (u.setPh .idle) t) :
    ∃ new, datapathEvents t = datapathEvents s ++ new ∧ InstrEvents m opnd s t new := by
  obtain ⟨new, hnew, h⟩ := hu.events_of_execShape hs
  obtain ⟨-, -, hhooks⟩ := hu.frame.eventCounts
  refine ⟨new, ?_, h⟩
  calc datapathEvents t = datapathEvents u ++ new.filter Event.isDatapath := by
        simp [datapathEvents, hnew]
    _ = datapathEvents s ++ new := by rw [hhooks, h.filter_isDatapath]

/-- Settles O29: outside an engine step there is no datapath event, and the engine step is
the diagnostic or one of the four cases of `InstrEvents`. -/
theorem oneDatapathOutcomePerStep : Obligations.OneDatapathOutcomePerStep := by
  intro opc s t hstep
  cases StepNext.of_step hstep with
  | ended hrs ht => exact ⟨[], by simp [ht], .inl rfl⟩
  | loads hrs hph ht => exact ⟨[], by simp [ht, loadStep_datapathEvents], .inl rfl⟩
  | stops hrs hph hw ht => exact ⟨[], by simp [ht], .inl rfl⟩
  | waits hu hp =>
    obtain ⟨-, -, hhooks⟩ := hu.frame.eventCounts
    exact ⟨[], by simp [hhooks], .inl rfl⟩
  | illegal u hu hd ht =>
    obtain ⟨-, -, hhooks⟩ := hu.frame.eventCounts
    subst ht
    exact ⟨_, by simp [hhooks], .inr (.inr (.inr (.inl ⟨hd, rfl, hu.frame.rs.trans hu.run,
      hu.frame.pc, hu.frame.a, hu.frame.mem⟩)))⟩
  | instr u m hu hd hs =>
    obtain ⟨new, hnew, h⟩ := hu.datapathEvents_of_execShape hs
    refine ⟨new, hnew, ?_⟩
    cases h with
    | silent hrs => exact .inl rfl
    | narrates w hrs => exact .inr (.inl ⟨m, w, hd, rfl, hrs.trans hu.run⟩)
    | outputs v hf hrs => exact .inr (.inr (.inl ⟨m, v, hd, hf, rfl, hrs⟩))
    | aborts hf hi hrs hpc ha hmem =>
      exact .inr (.inr (.inr (.inr ⟨m, hd, hf, rfl, hrs, hpc, ha, hmem⟩)))

/-- Settles O23: RS is written by the window test and by the two kinds of instruction that
`InstrEvents` names. -/
theorem runEndsInThreeWaysOnly : Obligations.RunEndsInThreeWaysOnly := by
  intro opc s t hstep hne
  cases StepNext.of_step hstep with
  | ended hrs ht => exact absurd (congrArg State.rs ht) hne
  | loads hrs hph ht =>
    obtain ⟨-, -, -, hkeep, -⟩ := loadStep_keeps s
    exact absurd (ht ▸ hkeep) hne
  | stops hrs hph hw ht =>
    exact .inl ⟨congrArg State.rs ht, (inWindow_false_iff s.pc).1 hw, ht⟩
  | waits hu hp => exact absurd hu.frame.rs hne
  | illegal u hu hd ht => exact absurd ((congrArg State.rs ht).trans hu.frame.rs) hne
  | instr u m hu hd hs =>
    obtain ⟨new, hnew, h⟩ := hu.events_of_execShape hs
    cases h with
    | silent hrs => exact absurd hrs hne
    | narrates w hrs => exact absurd hrs hne
    | outputs v hf hrs => exact .inr (.inl ⟨hrs, m, v, u.events, hd, hf, hnew⟩)
    | aborts hf hi hrs hpc ha hmem => exact .inr (.inr ⟨hrs, m, hd, hf, hi⟩)

/-! ### A whole cycle with its answers there (R172) -/

/-- The engine step starts from phase IDLE, whatever the phase it is called in. -/
theorem engineStep_setPh (opc : OpcodeMap) (p : Phase) (s : State) :
    engineStep opc (s.setPh p) = engineStep opc s := rfl

theorem engineStep_of_decode {rest : List Byte}
    (hd : decodeWith opc [fetchOpc s, fetchOpnd s] = .ok (i, rest)) :
    engineStep opc s = exec i (s.setPh .idle) := by
  simp [engineStep, hd]

theorem applyCommand_setPh (c : StepperCommand) (p : Phase) (s : State) :
    applyCommand c (s.setPh p) = (applyCommand c s).setPh p := by
  cases c <;> rfl

theorem applyCommand_ph (c : StepperCommand) (s : State) : (applyCommand c s).ph = s.ph := by
  cases c <;> rfl

/-- Several events appended. -/
def State.emitAll (s : State) (es : List Event) : State := { s with events := s.events ++ es }

@[simp] theorem State.emitAll_nil (s : State) : s.emitAll [] = s := by
  simp [State.emitAll]

theorem State.emit_eq_emitAll (s : State) (e : Event) : s.emit e = s.emitAll [e] := rfl

@[simp] theorem State.emitAll_emitAll (s : State) (es fs : List Event) :
    (s.emitAll es).emitAll fs = s.emitAll (es ++ fs) := by
  simp [State.emitAll]

theorem State.setPh_self {p : Phase} (h : s.ph = p) : s.setPh p = s := by
  subst h
  rfl

/-- The records of a cycle in their two sinks (R207, R208). -/
def recordEvents (opc : OpcodeMap) (s : State) : List Event :=
  (if s.journalEnabled then [.journal (record opc s)] else []) ++
    if s.verboseTrace then [.trace (record opc s)] else []

theorem journalWrite_eq (opc : OpcodeMap) (s : State) : journalWrite opc s =
    s.emitAll (if s.journalEnabled then [.journal (record opc s)] else []) := by
  cases hj : s.journalEnabled <;> simp [journalWrite, hj, State.emit_eq_emitAll]

theorem consoleTrace_eq (opc : OpcodeMap) (s : State) : consoleTrace opc s =
    s.emitAll (if s.verboseTrace then [.trace (record opc s)] else []) := by
  cases hv : s.verboseTrace <;> simp [consoleTrace, hv, State.emit_eq_emitAll]

/-- The console trace takes the record the journal took. -/
theorem traceHooks_eq (opc : OpcodeMap) (s : State) :
    consoleTrace opc (journalWrite opc s) = s.emitAll (recordEvents opc s) := by
  rw [journalWrite_eq, consoleTrace_eq, State.emitAll_emitAll]
  rfl

/-- What the counter and the breakpoint make of a state, the resume event being there (R172
steps 1 and 2, R202). -/
def passBreakpoint (s : State) : State :=
  (s.tick.setResumes (if breakpointFires s then s.resumes - 1 else s.resumes)).emitAll
    (if breakpointFires s then [.bpHit (s.cyc + 1) s.pc s.breakpointAddress] else [])

/-- What the journal, the trace and the stepper make of a state, the line being there (R172
steps 3 to 5, R209). -/
def passStepper (opc : OpcodeMap) (s : State) : State :=
  applyCommand (if s.stepping then classifyLine (s.lines.headD []) else .none)
    ((s.setLines (if s.stepping then s.lines.tail else s.lines)).emitAll
      (recordEvents opc s ++ if s.stepping then [.prompt s.pc s.a] else []))

theorem passBreakpoint_passes (hb : breakpointFires s = false) : passBreakpoint s = s.tick := by
  simp only [passBreakpoint, hb, Bool.false_eq_true, if_false, State.emitAll_nil]
  rfl

theorem passBreakpoint_fires (hb : breakpointFires s = true) : passBreakpoint s =
    (s.tick.setResumes (s.resumes - 1)).emit (.bpHit (s.cyc + 1) s.pc s.breakpointAddress) := by
  simp only [passBreakpoint, hb, if_true]
  rfl

theorem passStepper_off (hs : s.stepping = false) :
    passStepper opc s = s.emitAll (recordEvents opc s) := by
  simp only [passStepper, hs, Bool.false_eq_true, if_false, List.append_nil]
  rfl

theorem passStepper_on (hs : s.stepping = true) :
    passStepper opc s = applyCommand (classifyLine (s.lines.headD []))
      ((s.setLines s.lines.tail).emitAll (recordEvents opc s ++ [.prompt s.pc s.a])) := by
  simp only [passStepper, hs, if_true]

theorem passStepper_setPh (opc : OpcodeMap) (p : Phase) (s : State) :
    passStepper opc (s.setPh p) = (passStepper opc s).setPh p := by
  cases hs : s.stepping with
  | false =>
    rw [passStepper_off hs, passStepper_off (s := s.setPh p) hs]
    rfl
  | true =>
    rw [passStepper_on hs, passStepper_on (s := s.setPh p) hs, ← applyCommand_setPh]
    rfl

theorem enterStepWait_emitAll (s : State) (es : List Event) :
    enterStepWait (s.emitAll es) = (s.emitAll (es ++ [.prompt s.pc s.a])).setPh .stepWait := by
  simp [enterStepWait, State.emit_eq_emitAll, State.emitAll]

/-- The engine step starts from phase IDLE, so the wait that is over leaves no trace. -/
theorem afterBreakpoint_answered (hans : s.stepping = true → s.lines ≠ []) :
    afterBreakpoint opc s = engineStep opc (passStepper opc s) := by
  cases hs : s.stepping with
  | false => rw [afterBreakpoint_off hs, traceHooks_eq, passStepper_off hs]
  | true =>
    obtain ⟨l, rest, hl⟩ := List.exists_cons_of_ne_nil (hans hs)
    let es := recordEvents opc s ++ [.prompt s.pc s.a]
    calc afterBreakpoint opc s = awaitLine opc ((s.emitAll es).setPh .stepWait) := by
          rw [afterBreakpoint_on hs, traceHooks_eq, enterStepWait_emitAll]
      _ = engineStep opc (applyCommand (classifyLine l)
            (((s.setLines rest).emitAll es).setPh .stepWait)) :=
          awaitLine_cons (s := (s.emitAll es).setPh .stepWait) hl
      _ = engineStep opc (passStepper opc s) := by
          rw [applyCommand_setPh, engineStep_setPh, passStepper_on hs, hl]
          rfl

theorem beginCycle_answered (hans : s.answered) :
    beginCycle opc s = engineStep opc (passStepper opc (passBreakpoint s)) := by
  obtain ⟨hresume, hline⟩ := hans
  cases hb : breakpointFires s with
  | false =>
    rw [beginCycle_passes opc hb, passBreakpoint_passes hb]
    exact afterBreakpoint_answered (s := s.tick) hline
  | true =>
    obtain ⟨n, hn⟩ := Nat.exists_eq_succ_of_ne_zero (hresume hb).ne'
    let r := (s.tick.setResumes n).emit (.bpHit (s.cyc + 1) s.pc s.breakpointAddress)
    have hpass : passBreakpoint s = r := by rw [passBreakpoint_fires hb, hn]; rfl
    calc beginCycle opc s = afterBreakpoint opc (r.setPh .bpWait) :=
          (beginCycle_fires opc hb).trans (awaitResume_succ (s := enterBpWait s.tick) hn)
      _ = engineStep opc ((passStepper opc r).setPh .bpWait) := by
          rw [afterBreakpoint_answered (s := r.setPh .bpWait) hline, passStepper_setPh]
      _ = engineStep opc (passStepper opc (passBreakpoint s)) := by
          rw [engineStep_setPh, hpass]

/-- The hooks of a cycle together, as O31 writes them out. -/
theorem passStepper_passBreakpoint (opc : OpcodeMap) (s : State) :
    passStepper opc (passBreakpoint s) =
      applyCommand (if s.stepping then classifyLine (s.lines.headD []) else .none)
        { s with
          cyc := s.cyc + 1
          resumes := if breakpointFires s then s.resumes - 1 else s.resumes
          lines := if s.stepping then s.lines.tail else s.lines
          events := s.events ++
            (if breakpointFires s then [.bpHit (s.cyc + 1) s.pc s.breakpointAddress]
              else []) ++
            (if s.journalEnabled then [.journal (record opc { s with cyc := s.cyc + 1 })]
              else []) ++
            (if s.verboseTrace then [.trace (record opc { s with cyc := s.cyc + 1 })]
              else []) ++
            (if s.stepping then [.prompt s.pc s.a] else []) } := by
  simp only [passStepper, passBreakpoint, recordEvents, State.emitAll, State.tick_eq,
    State.setCyc, State.setResumes, State.setLines, List.append_assoc]
  rfl

theorem passStepper_frame (opc : OpcodeMap) (s : State) :
    (passStepper opc s).pc = s.pc ∧ (passStepper opc s).mem = s.mem :=
  ⟨(applyCommand_frame _ _).pc, (applyCommand_frame _ _).mem⟩

theorem passStepper_ph (opc : OpcodeMap) (s : State) : (passStepper opc s).ph = s.ph :=
  applyCommand_ph _ _

/-- Settles O31: the hooks, all answered, lead to a state with the fetch of the first one. -/
theorem cycleFollowsTheHookOrder : Obligations.CycleFollowsTheHookOrder := by
  intro opc s i hrs hph hw hans hd
  rw [← passStepper_passBreakpoint]
  obtain ⟨hpc, hmem⟩ := passStepper_frame opc (passBreakpoint s)
  generalize hu : passStepper opc (passBreakpoint s) = u at hpc hmem
  have hidle : u.ph = .idle := hu ▸ (passStepper_ph opc _).trans hph
  have hfetch : decodeWith opc [fetchOpc u, fetchOpnd u] = .ok (i, []) := by
    rw [fetchOpc_congr hpc hmem, fetchOpnd_congr hpc hmem]
    exact hd
  calc stepWith opc s = engineStep opc u :=
        hu ▸ (stepWith_cycle opc hrs hph hw).trans (beginCycle_answered hans)
    _ = exec i u := by rw [engineStep_of_decode hfetch, State.setPh_self hidle]

/-- Settles O30: with the hooks idle nothing is missing, and the cycle of O31 has no event
of its own. -/
theorem stepRunsTheDecodedInstruction : Obligations.StepRunsTheDecodedInstruction := by
  intro opc s i hrs hph hw hquiet hd
  obtain ⟨hbp, hj, hv, hst⟩ := hquiet
  have hans : s.answered := ⟨by simp [hbp], by simp [hst]⟩
  have h := cycleFollowsTheHookOrder opc s i hrs hph hw hans hd
  simpa [hbp, hj, hv, hst, applyCommand] using h

/-- The word that the table gives an instruction for is its opcode byte and its operand. -/
theorem decodeWith_of_decodeTableWord {nbits w : Nat} (h : decodeTableWord nbits w = some i) :
    decodeWith Config.opc [(tableWordBytes nbits w).1, (tableWordBytes nbits w).2] =
      .ok (i, []) := by
  unfold decodeTableWord decode at h
  cases hd : decodeWith Config.opc
      [(tableWordBytes nbits w).1, (tableWordBytes nbits w).2] with
  | error e => simp [hd] at h
  | ok r =>
    obtain ⟨j, rest⟩ := r
    obtain ⟨m, -, -, rfl⟩ := decodeWith_ok hd
    simp only [hd, Option.some.injEq] at h
    rw [h]

/-- Settles O49: a placed word leaves the hooks idle, so O30 speaks of it. -/
theorem placedWordIsRunByTheNextStep : Obligations.PlacedWordIsRunByTheNextStep := by
  intro s nbits w i hword hj hv
  let p := tableWordBytes nbits w
  obtain ⟨hopc, hopnd⟩ := s.place_fetch p.1 p.2
  have hdecode : decodeWith Config.opc
      [fetchOpc (s.place p.1 p.2), fetchOpnd (s.place p.1 p.2)] = .ok (i, []) := by
    rw [hopc, hopnd]
    exact decodeWith_of_decodeTableWord hword
  exact stepRunsTheDecodedInstruction Config.opc _ i rfl rfl (s.place_inWindow _ _)
    ⟨rfl, hj, hv, rfl⟩ hdecode

end Sys2Proof.Machine
end

section
/-!
The three waits of a cycle (44_runloop R181, R182): in each a running machine has used up
the answers it waits for, so it stays as it is until the host answers, and an answer that
comes late has the effect it would have had in its queue from the start.
-/

namespace Sys2Proof.Machine

variable {opc : OpcodeMap} {m : Mnemonic} {opnd : Byte} {l : Line} {rest : List Line} {n : Nat}
  {s t u : State}

/-! ### A machine that waits (R181) -/

/-- A cycle that waits with nothing in the queue it waits for, an IN in IN_WAIT. -/
structure State.Waits (opc : OpcodeMap) (s : State) : Prop where
  run : s.rs = .run
  fetch : fetchable s.pc = true
  noResume : s.ph = .bpWait → s.resumes = 0
  noLine : s.ph = .stepWait → s.lines = []
  noItem : s.ph = .inWait → s.inItems = []
  inWaitIn : s.ph = .inWait → ∃ m, decodeByte opc (fetchOpc s) = some m ∧ m.family = .input

/-- R131: an IN with no item writes the phase alone. -/
theorem exec_input_empty (hf : m.family = .input) (hi : s.inItems = []) :
    exec (Instr.ofMnemonic m opnd) s = .next (s.setPh .inWait) := by
  cases m with
  | inDir => exact inMeaning_empty .dir hi
  | inInd => exact inMeaning_empty .ind hi
  | _ => cases hf

/-- R181: with no answer of the host a wait goes on as it is. -/
theorem State.Waits.stepWith_self (h : s.Waits opc)
    (hph : s.ph = .bpWait ∨ s.ph = .stepWait ∨ s.ph = .inWait) : stepWith opc s = .next s := by
  rcases hph with hph | hph | hph
  · rw [stepWith_bpWait opc h.run hph h.fetch, awaitResume_zero (h.noResume hph)]
  · rw [stepWith_stepWait opc h.run hph h.fetch, awaitLine_nil (h.noLine hph)]
  · obtain ⟨m, hd, hf⟩ := h.inWaitIn hph
    have hidle : (s.setPh .idle).inItems = [] := h.noItem hph
    rw [stepWith_inWait opc h.run hph h.fetch, engineStep_some hd, exec_input_empty hf hidle]
    exact congrArg _ (State.setPh_self hph)

/-- An instruction leaves the phase IDLE, unless it is an IN with no item. -/
theorem ExecShape.ph_cases (h : ExecShape m opnd s t) (hph : s.ph = .idle) :
    t.ph = .idle ∨ (t = s.setPh .inWait ∧ m.family = .input ∧ s.inItems = []) := by
  cases h with
  | inWaits hf hi => exact .inr ⟨rfl, hf, hi⟩
  | inByte => exact .inl rfl
  | inMalformed => exact .inl rfl
  | _ => exact .inl hph

/-- A step that ends in a wait has written no architectural state, and has used up the answers
it waits for. -/
theorem waits_of_stepWith (hrs : s.rs = .run) (hstep : stepWith opc s = .next t)
    (hph : t.ph = .bpWait ∨ t.ph = .stepWait ∨ t.ph = .inWait) : Held s t ∧ t.Waits opc := by
  cases StepNext.of_step hstep with
  | ended hend ht => rcases hend with hend | hend <;> simp [hrs] at hend
  | loads hrs' hload ht =>
    rcases loadStep_phase hload with hl | hl <;> simp [ht, hl] at hph
  | stops hrs' hidle hw ht => simp [ht, hidle] at hph
  | waits hu hp =>
    have hrun := hu.frame.rs.trans hrs
    have hfetch : fetchable t.pc = true := hu.frame.pc ▸ hu.fetch
    rcases hp with ⟨hw, hq, -⟩ | ⟨hw, hq, -⟩
    · exact ⟨hu.frame.held, hrun, hfetch, fun _ => hq, by simp [hw], by simp [hw], by simp [hw]⟩
    · exact ⟨hu.frame.held, hrun, hfetch, by simp [hw], fun _ => hq, by simp [hw], by simp [hw]⟩
  | illegal u hu hd ht => simp [ht] at hph
  | instr u m hu hd hs =>
    rcases hs.ph_cases rfl with hidle | ⟨rfl, hf, hi⟩
    · simp [hidle] at hph
    · have hfetch : fetchOpc (u.setPh .idle) = fetchOpc s := hu.frame.fetchOpc
      have hheld : Held s ((u.setPh .idle).setPh .inWait) :=
        ⟨hu.frame.pc, hu.frame.a, hu.frame.mem, hu.frame.rs⟩
      exact ⟨hheld, hu.frame.rs.trans hrs, hu.frame.pc ▸ hu.fetch, nofun, nofun,
        fun _ => hi, fun _ => ⟨m, hfetch ▸ hd, hf⟩⟩

/-- R39, R175: only a running machine leaves its state. -/
theorem eq_of_stepWith_of_not_run (hrs : s.rs ≠ .run) (hstep : stepWith opc s = .next t) :
    t = s := by
  cases StepNext.of_step hstep with
  | ended hend ht => exact ht
  | loads hrun | stops hrun => exact absurd hrun hrs
  | waits hu | illegal u hu | instr u m hu => exact absurd hu.run hrs

/-- Settles O28: the wait of a running machine is `waits_of_stepWith`, and a run that has ended
does not leave its state. -/
theorem waitingChangesNoArchitecturalState : Obligations.WaitingChangesNoArchitecturalState := by
  intro opc s t hstep hph
  by_cases hrs : s.rs = .run
  · obtain ⟨hheld, hwaits⟩ := waits_of_stepWith hrs hstep hph
    exact ⟨hheld.a, hheld.pc, hheld.mem, hheld.rs, hwaits.stepWith_self hph⟩
  · obtain rfl := eq_of_stepWith_of_not_run hrs hstep
    exact ⟨rfl, rfl, rfl, rfl, hstep⟩

/-! ### The answers of the host (R281) -/

/-- The three answers to a wait. -/
inductive Answer where
  | resume
  | line (l : Line)
  | item (it : InputItem)

/-- The move of the host that gives the answer. -/
def Answer.move : Answer → HostMove
  | .resume => .resume
  | .line l => .line l
  | .item it => .item it

/-- The phase that waits for the answer (R182). -/
def Answer.phase : Answer → Phase
  | .resume => .bpWait
  | .line _ => .stepWait
  | .item _ => .inWait

theorem Answer.phase_waits (ans : Answer) :
    ans.phase = .bpWait ∨ ans.phase = .stepWait ∨ ans.phase = .inWait := by
  cases ans <;> simp [Answer.phase]

theorem Answer.phase_ne_idle (ans : Answer) : ans.phase ≠ .idle := by
  cases ans <;> simp [Answer.phase]

theorem Answer.phase_ne_load (ans : Answer) : ans.phase ≠ .load := by
  cases ans <;> simp [Answer.phase]

/-- The answer at the end of its queue. -/
def Answer.queue : Answer → State → State
  | .resume, s => s.setResumes (s.resumes + 1)
  | .line l, s => s.setLines (s.lines ++ [l])
  | .item it, s => s.setInItems (s.inItems ++ [it])

variable {ans : Answer}

/-- The machine asks for the answer it waits for, so the host's move gives it (R281). -/
theorem State.Waits.hostSend_move (h : s.Waits opc) (hph : s.ph = ans.phase) :
    hostSend ans.move s = ans.queue s := by
  cases ans with
  | resume =>
    have hph : s.ph = .bpWait := hph
    exact hostSend_resume_of_asksFor (by simp [asksFor, hph, h.noResume hph])
  | line l =>
    have hph : s.ph = .stepWait := hph
    exact hostSend_line_of_asksFor (by simp [asksFor, hph, h.noLine hph])
  | item it =>
    have hph : s.ph = .inWait := hph
    exact hostSend_item_of_asksFor (by simp [asksFor, hph, h.noItem hph])

@[simp] theorem Answer.queue_pc (ans : Answer) (s : State) : (ans.queue s).pc = s.pc := by
  cases ans <;> rfl

@[simp] theorem Answer.queue_rs (ans : Answer) (s : State) : (ans.queue s).rs = s.rs := by
  cases ans <;> rfl

@[simp] theorem Answer.queue_ph (ans : Answer) (s : State) : (ans.queue s).ph = s.ph := by
  cases ans <;> rfl

@[simp] theorem Answer.queue_stepping (ans : Answer) (s : State) :
    (ans.queue s).stepping = s.stepping := by
  cases ans <;> rfl

@[simp] theorem Answer.breakpointFires_queue (ans : Answer) (s : State) :
    breakpointFires (ans.queue s) = breakpointFires s := by
  cases ans <;> rfl

/-! ### The hooks of a cycle do not see a queued answer -/

theorem Answer.queue_setPh (ans : Answer) (p : Phase) (s : State) :
    ans.queue (s.setPh p) = (ans.queue s).setPh p := by
  cases ans <;> rfl

theorem Answer.queue_tick (ans : Answer) (s : State) : ans.queue s.tick = (ans.queue s).tick := by
  cases ans <;> rfl

theorem Answer.queue_enterBpWait (ans : Answer) (s : State) :
    ans.queue (enterBpWait s) = enterBpWait (ans.queue s) := by
  cases ans <;> rfl

theorem Answer.queue_enterStepWait (ans : Answer) (s : State) :
    ans.queue (enterStepWait s) = enterStepWait (ans.queue s) := by
  cases ans <;> rfl

theorem Answer.queue_traceHooks (ans : Answer) (opc : OpcodeMap) (s : State) :
    ans.queue (consoleTrace opc (journalWrite opc s)) =
      consoleTrace opc (journalWrite opc (ans.queue s)) := by
  rw [traceHooks_eq, traceHooks_eq]
  cases ans <;> rfl

theorem Answer.queue_applyCommand (ans : Answer) (c : StepperCommand) (s : State) :
    ans.queue (applyCommand c s) = applyCommand c (ans.queue s) := by
  cases ans <;> cases c <;> rfl

/-- An answer at the end of a queue leaves its head the next to be taken. -/
theorem awaitResume_queue_succ (ans : Answer) (h : s.resumes = n + 1) :
    awaitResume opc (ans.queue s) = afterBreakpoint opc (ans.queue (s.setResumes n)) := by
  cases ans with
  | resume => exact awaitResume_succ (congrArg (· + 1) h)
  | line l => exact awaitResume_succ h
  | item it => exact awaitResume_succ h

theorem awaitLine_queue_cons (ans : Answer) (h : s.lines = l :: rest) :
    awaitLine opc (ans.queue s) =
      engineStep opc (ans.queue (applyCommand (classifyLine l) (s.setLines rest))) := by
  rw [Answer.queue_applyCommand]
  cases ans with
  | resume => exact awaitLine_cons h
  | line l' => exact awaitLine_cons (congrArg (· ++ [l']) h)
  | item it => exact awaitLine_cons h

/-! ### A late answer, from the engine step outward (R181) -/

/-- The engine step waits only in an IN, and begins again there. -/
theorem engineStep_late (hrs : s.rs = .run) (hw : fetchable s.pc = true)
    (h : engineStep opc s = .next t) (hph : t.ph = ans.phase) :
    stepWith opc (ans.queue t) = engineStep opc (ans.queue s) := by
  have hidle : t.ph ≠ .idle := hph ▸ ans.phase_ne_idle
  rcases engineStep_cases opc s with ⟨-, he⟩ | ⟨m, t', -, he, hs⟩
  · cases he.symm.trans h
    exact absurd rfl hidle
  · cases he.symm.trans h
    rcases hs.ph_cases rfl with hidle' | ⟨rfl, -, -⟩
    · exact absurd hidle' hidle
    · rw [stepWith_inWait opc (by simp [hrs]) (by simp) (by simp [hw]), ans.queue_setPh,
        ans.queue_setPh, engineStep_setPh, engineStep_setPh]

theorem awaitLine_late (hrs : s.rs = .run) (hw : fetchable s.pc = true)
    (hwait : s.ph = .stepWait) (h : awaitLine opc s = .next t) (hph : t.ph = ans.phase) :
    stepWith opc (ans.queue t) = awaitLine opc (ans.queue s) := by
  cases hl : s.lines with
  | nil =>
    cases (awaitLine_nil hl).symm.trans h
    exact stepWith_stepWait opc (by simp [hrs]) (by simp [hwait]) (by simp [hw])
  | cons l rest =>
    rw [awaitLine_cons hl] at h
    have hf := applyCommand_frame (classifyLine l) (s.setLines rest)
    rw [awaitLine_queue_cons ans hl]
    exact engineStep_late (hf.rs.trans hrs) (hf.pc ▸ hw) h hph

theorem afterBreakpoint_late (hrs : s.rs = .run) (hw : fetchable s.pc = true)
    (h : afterBreakpoint opc s = .next t) (hph : t.ph = ans.phase) :
    stepWith opc (ans.queue t) = afterBreakpoint opc (ans.queue s) := by
  have hf := (journalWrite_frame opc s).trans (consoleTrace_frame opc _)
  have hst := ans.queue_stepping s
  cases hs : s.stepping with
  | false =>
    rw [afterBreakpoint_off hs] at h
    rw [afterBreakpoint_off (hst.trans hs), ← ans.queue_traceHooks]
    exact engineStep_late (hf.rs.trans hrs) (hf.pc ▸ hw) h hph
  | true =>
    rw [afterBreakpoint_on hs] at h
    rw [afterBreakpoint_on (hst.trans hs), ← ans.queue_traceHooks, ← ans.queue_enterStepWait]
    exact awaitLine_late (hf.rs.trans hrs) (hf.pc ▸ hw) rfl h hph

theorem awaitResume_late (hrs : s.rs = .run) (hw : fetchable s.pc = true)
    (hwait : s.ph = .bpWait) (h : awaitResume opc s = .next t) (hph : t.ph = ans.phase) :
    stepWith opc (ans.queue t) = awaitResume opc (ans.queue s) := by
  cases hr : s.resumes with
  | zero =>
    cases (awaitResume_zero hr).symm.trans h
    exact stepWith_bpWait opc (by simp [hrs]) (by simp [hwait]) (by simp [hw])
  | succ n =>
    rw [awaitResume_succ hr] at h
    rw [awaitResume_queue_succ ans hr]
    exact afterBreakpoint_late hrs hw h hph

theorem beginCycle_late (hrs : s.rs = .run) (hw : fetchable s.pc = true)
    (h : beginCycle opc s = .next t) (hph : t.ph = ans.phase) :
    stepWith opc (ans.queue t) = beginCycle opc (ans.queue s) := by
  have hfires := ans.breakpointFires_queue s
  cases hb : breakpointFires s with
  | false =>
    rw [beginCycle_passes opc hb] at h
    rw [beginCycle_passes opc (hfires.trans hb), ← ans.queue_tick]
    exact afterBreakpoint_late hrs hw h hph
  | true =>
    rw [beginCycle_fires opc hb] at h
    rw [beginCycle_fires opc (hfires.trans hb), ← ans.queue_tick, ← ans.queue_enterBpWait]
    exact awaitResume_late hrs hw rfl h hph

/-- A step that ends in a wait goes on, once answered, as the step with the answer there. -/
theorem stepWith_late (hrs : s.rs = .run) (h : stepWith opc s = .next t)
    (hph : t.ph = ans.phase) :
    stepWith opc (ans.queue t) = stepWith opc (ans.queue s) := by
  obtain ⟨hheld, hwaits⟩ := waits_of_stepWith hrs h (hph ▸ ans.phase_waits)
  have hw : fetchable s.pc = true := hheld.pc ▸ hwaits.fetch
  have hrs' := (ans.queue_rs s).trans hrs
  have hph' := ans.queue_ph s
  have hw' : fetchable (ans.queue s).pc = true := (ans.queue_pc s).symm ▸ hw
  cases hs : s.ph with
  | load =>
    rw [stepWith_load opc hrs hs] at h
    cases h
    rcases loadStep_phase hs with hload | hidle
    · exact absurd (hph.symm.trans hload) ans.phase_ne_load
    · exact absurd (hph.symm.trans hidle) ans.phase_ne_idle
  | idle =>
    cases hin : inWindow s.pc with
    | false =>
      rw [stepWith_outside opc hrs hs hin] at h
      cases h
      exact absurd (hph.symm.trans hs) ans.phase_ne_idle
    | true =>
      rw [stepWith_cycle opc hrs hs hin] at h
      rw [stepWith_cycle opc hrs' (hph'.trans hs) (by simpa using hin)]
      exact beginCycle_late hrs hw h hph
  | bpWait =>
    rw [stepWith_bpWait opc hrs hs hw] at h
    rw [stepWith_bpWait opc hrs' (hph'.trans hs) hw']
    exact awaitResume_late hrs hw hs h hph
  | stepWait =>
    rw [stepWith_stepWait opc hrs hs hw] at h
    rw [stepWith_stepWait opc hrs' (hph'.trans hs) hw']
    exact awaitLine_late hrs hw hs h hph
  | inWait =>
    rw [stepWith_inWait opc hrs hs hw] at h
    rw [stepWith_inWait opc hrs' (hph'.trans hs) hw']
    exact engineStep_late hrs hw h hph

theorem stepWith_hostSend_late (hrs : s.rs = .run) (h : stepWith opc s = .next t)
    (hph : t.ph = ans.phase) :
    stepWith opc (hostSend ans.move t) = stepWith opc (ans.queue s) := by
  obtain ⟨-, hwaits⟩ := waits_of_stepWith hrs h (hph ▸ ans.phase_waits)
  rw [hwaits.hostSend_move hph, stepWith_late hrs h hph]

/-- Settles O37: the three clauses are the three answers of one lemma. -/
theorem lateAnswerEqualsEarlyAnswer : Obligations.LateAnswerEqualsEarlyAnswer :=
  fun _ _ _ hrs hstep =>
  ⟨stepWith_hostSend_late (ans := .resume) hrs hstep,
    fun hph l => stepWith_hostSend_late (ans := .line l) hrs hstep hph,
    fun hph it => stepWith_hostSend_late (ans := .item it) hrs hstep hph⟩

end Sys2Proof.Machine
end

section
/-!
The debug controller (45_debug R200 to R216, R220): the comparator, the record, the stepper's
commands, the three pauses, and the two flags, which are frozen once the stepper is off.
-/

namespace Sys2Proof.Machine

variable {opc : OpcodeMap} {l : Line} {addr v : Byte} {s t u : State}

/-! ### The comparator (R201, R204) -/

/-- R201: inside the run window PC + 1 does not wrap. -/
theorem fires_iff {pc : PcWord} (h : inWindow pc = true) (t : Byte) :
    fires pc t = true ↔ pc.toNat = t.toNat ∨ pc.toNat + 1 = t.toNat := by
  have hpc := (inWindow_iff pc).1 h
  have ht := t.isLt
  simp only [fires, Bool.or_eq_true, beq_iff_eq]
  bv_omega

/-- Settles O38: the window bounds the two cells, so a target at its edge leaves one PC. -/
theorem breakpointFiresOnTheInstructionCells :
    Obligations.BreakpointFiresOnTheInstructionCells := by
  intro pc t hw
  have hpc := (inWindow_iff pc).1 hw
  have hfires := fires_iff hw t
  refine ⟨hfires, fun ht => ?below, ?first, ?last⟩
  case below =>
    rw [← Bool.not_eq_true, hfires]
    omega
  case first =>
    rintro rfl
    rw [hfires]
    bv_omega
  case last =>
    rintro rfl
    rw [hfires]
    bv_omega

/-! ### The record (R206 to R208) -/

/-- The operand cell of an instruction in the run window is the one after its opcode cell. -/
theorem fetchOpnd_of_inWindow (h : inWindow s.pc = true) :
    fetchOpnd s = memRead (BitVec.ofNat 8 (s.pc.toNat + 1)) s := by
  obtain ⟨-, hcell⟩ := cells_of_inWindow h
  have haddr : (s.pc + 1).setWidth 8 = BitVec.ofNat 8 (s.pc.toNat + 1) := by
    rw [← hcell, BitVec.ofNat_toNat, BitVec.setWidth_eq]
  exact congrArg (memRead · s) haddr

theorem fetchOpc_eq (s : State) : fetchOpc s = memRead (BitVec.ofNat 8 s.pc.toNat) s :=
  congrArg (memRead · s) (BitVec.ofNat_toNat 8 s.pc).symm

/-- Settles O32: both sinks take the record of the state before them, and its fields are read
off that state. -/
theorem recordDescribesTheInstructionToRun : Obligations.RecordDescribesTheInstructionToRun := by
  intro opc s hw
  have hpc := (inWindow_iff s.pc).1 hw
  have hnext : (s.pc + 1).toNat = s.pc.toNat + 1 := by bv_omega
  have hevents : (consoleTrace opc (journalWrite opc s)).events =
      s.events ++ recordEvents opc s := by
    rw [traceHooks_eq]
    rfl
  exact ⟨rfl, rfl, rfl, hnext, fetchOpc_eq s, fetchOpnd_of_inWindow hw, rfl, rfl, rfl,
    hevents.trans (List.append_assoc _ _ _).symm⟩

/-! ### The stepper's commands (R210, R211) -/

theorem classifyLine_stopStepper (h : l.map lowerChar = wordStopStepper) :
    classifyLine l = .stopStepper := by
  simp [classifyLine, h]

theorem classifyLine_print (h : l.map lowerChar = wordPrint) : classifyLine l = .print := by
  have hne : wordPrint ≠ wordStopStepper := by decide
  simp [classifyLine, h, hne]

theorem classifyLine_stopPrint (h : l.map lowerChar = wordStopPrint) :
    classifyLine l = .stopPrint := by
  have hne : wordStopPrint ≠ wordStopStepper ∧ wordStopPrint ≠ wordPrint := by decide
  simp [classifyLine, h, hne]

theorem classifyLine_none
    (h : l.map lowerChar ∉ [wordStopStepper, wordPrint, wordStopPrint]) :
    classifyLine l = .none := by
  simp only [List.mem_cons, List.not_mem_nil, or_false, not_or] at h
  obtain ⟨hstop, hprint, hstopPrint⟩ := h
  simp [classifyLine, hstop, hprint, hstopPrint]

/-- Lowering the case keeps the length, so a line that is a command has a command's length. -/
theorem length_of_map_lowerChar_mem
    (h : l.map lowerChar ∈ [wordStopStepper, wordPrint, wordStopPrint]) :
    l.length = 12 ∨ l.length = 5 ∨ l.length = 10 := by
  have hwords : ∀ w ∈ [wordStopStepper, wordPrint, wordStopPrint],
      w.length = 12 ∨ w.length = 5 ∨ w.length = 10 := by decide
  simpa only [List.length_map] using hwords _ h

/-- Settles O41: each word is classified as its command, every other line as none. -/
theorem stepperCommandsChangeTwoFlags : Obligations.StepperCommandsChangeTwoFlags := by
  intro l s
  have hother (h : l.map lowerChar ∉ [wordStopStepper, wordPrint, wordStopPrint]) :
      applyCommand (classifyLine l) s = s := by
    rw [classifyLine_none h]
    rfl
  refine ⟨fun h => ?_, fun h => ?_, fun h => ?_, hother, fun h12 h5 h10 => hother fun hmem => ?_⟩
  · rw [classifyLine_stopStepper h]
    rfl
  · rw [classifyLine_print h]
    rfl
  · rw [classifyLine_stopPrint h]
    rfl
  · have := length_of_map_lowerChar_mem hmem
    omega

/-! ### The pauses of a cycle (R202, R209) -/

/-- Settles O39: the cycle is counted and stands at the breakpoint, with no resume event. -/
theorem breakpointPausesBeforeTheInstruction :
    Obligations.BreakpointPausesBeforeTheInstruction := by
  intro opc s hrs hph hw hb hresumes
  calc stepWith opc s = beginCycle opc s := stepWith_cycle opc hrs hph hw
    _ = awaitResume opc (enterBpWait s.tick) := beginCycle_fires opc hb
    _ = .next (enterBpWait s.tick) := awaitResume_zero hresumes

/-- R209, R212: the state in which the cycle waits for its line. -/
theorem stepWith_pauses (opc : OpcodeMap) (hrs : s.rs = .run) (hph : s.ph = .idle)
    (hw : inWindow s.pc = true) (hb : breakpointFires s = false) (hst : s.stepping = true)
    (hl : s.lines = []) :
    stepWith opc s = .next ((s.tick.emitAll
      (recordEvents opc s.tick ++ [.prompt s.pc s.a])).setPh .stepWait) := by
  let waiting := (s.tick.emitAll (recordEvents opc s.tick ++ [.prompt s.pc s.a])).setPh .stepWait
  calc stepWith opc s = afterBreakpoint opc s.tick :=
        (stepWith_cycle opc hrs hph hw).trans (beginCycle_passes opc hb)
    _ = awaitLine opc (enterStepWait (consoleTrace opc (journalWrite opc s.tick))) :=
        afterBreakpoint_on hst
    _ = awaitLine opc waiting := by
        rw [traceHooks_eq, enterStepWait_emitAll]
        rfl
    _ = .next waiting := awaitLine_nil hl

/-- Settles O40: the pause writes the counter, the phase and events alone, and a wait goes on
as it is. -/
theorem stepperPausesBeforeTheInstruction : Obligations.StepperPausesBeforeTheInstruction := by
  intro opc s hrs hph hw hb hst hl
  have hstep := stepWith_pauses opc hrs hph hw hb hst hl
  obtain ⟨-, -, -, -, hstays⟩ :=
    waitingChangesNoArchitecturalState opc s _ hstep (.inr (.inl rfl))
  exact ⟨_, hstep, rfl, rfl, ⟨recordEvents opc s.tick, (List.append_assoc _ _ _).symm⟩, rfl, rfl,
    rfl, ⟨rfl, rfl, rfl, rfl, rfl, rfl, rfl⟩, ⟨rfl, rfl, rfl⟩, rfl, hstays⟩

/-! ### The pause of the RAM dump (R220) -/

/-- A cell loaded with the dump and the stepper on. -/
theorem loadStep_write_pauses {rest : List LoadMove} (hpause : s.dumpPause = false)
    (hdump : s.dumpOnLoad = true) (hst : s.stepping = true)
    (hloads : s.loads = .write addr v :: rest) :
    loadStep s =
      ((memWrite addr v (s.setLoads rest)).emit (.dump addr v)).setDumpPause true := by
  simp [loadStep, dumpCell, hpause, hdump, hst, hloads]

theorem loadStep_pause_nil (hpause : s.dumpPause = true) (hl : s.lines = []) :
    loadStep s = s := by
  simp [loadStep, hpause, hl]

theorem loadStep_pause_cons {rest : List Line} (hpause : s.dumpPause = true)
    (hl : s.lines = l :: rest) :
    loadStep s = (applyCommand (classifyLine l) (s.setLines rest)).setDumpPause false := by
  simp [loadStep, hpause, hl]

/-- Settles O8: the pause is the state after the write, with the lines of before it. -/
theorem ramDumpPausesForOneLine : Obligations.RamDumpPausesForOneLine := by
  intro opc s addr v rest hrs hph hpause hdump hst hloads
  let t := ((memWrite addr v (s.setLoads rest)).emit (.dump addr v)).setDumpPause true
  have hstep : stepWith opc s = .next t :=
    (stepWith_load opc hrs hph).trans
      (congrArg _ (loadStep_write_pauses hpause hdump hst hloads))
  have hload : stepWith opc t = .next (loadStep t) := stepWith_load opc hrs hph
  refine ⟨t, hstep, rfl, ?cell, sameMemoryBut_of_mem_eq_write rfl, rfl, rfl, fun hl => ?silent,
    fun l ls hl => ?answered⟩
  case cell => simp [t]
  case silent => rw [hload, loadStep_pause_nil (s := t) rfl hl]
  case answered => rw [hload, loadStep_pause_cons (s := t) rfl hl]

/-! ### The two flags with the stepper off (R213) -/

/-- No line is applied in the load phase unless a RAM dump has paused. -/
theorem loadStep_verboseTrace (h : s.dumpPause = false) :
    (loadStep s).verboseTrace = s.verboseTrace := by
  have hs := loadStep_shape s
  generalize loadStep s = t at hs
  cases hs with
  | waits => rfl
  | line l rest hd hl => simp [h] at hd
  | write addr v rest hd hl => unfold dumpCell; split <;> rfl
  | run rest hd hl => rfl

theorem loadStep_stepping (h : (loadStep s).stepping = true) : s.stepping = true := by
  have hs := loadStep_shape s
  generalize loadStep s = t at hs h
  cases hs with
  | waits => exact h
  | line l rest hd hl => exact (applyCommand_frame (classifyLine l) (s.setLines rest)).stepping h
  | write addr v rest hd hl => unfold dumpCell at h; split at h <;> exact h
  | run rest hd hl => exact h

/-- R213: no step turns the stepper on. -/
theorem stepWith_stepping (hstep : stepWith opc s = .next t) (h : t.stepping = true) :
    s.stepping = true := by
  cases StepNext.of_step hstep with
  | ended hrs ht => exact ht ▸ h
  | loads hrs hph ht => exact loadStep_stepping (ht ▸ h)
  | stops hrs hph hw ht => exact (congrArg State.stepping ht).symm.trans h
  | waits hu hp => exact hu.frame.stepping h
  | illegal u hu hd ht => exact hu.frame.stepping ((congrArg State.stepping ht).symm.trans h)
  | instr u m hu hd hs =>
    obtain ⟨-, ⟨hkeep, -⟩, -⟩ := hs.frame
    exact hu.frame.stepping (hkeep.symm.trans h)

/-- With the stepper off a cycle that waits for a line, or a RAM dump that does, would break
the invariant. -/
theorem State.Inv.stepWith_verboseTrace (h : s.Inv opc) (hoff : s.stepping = false)
    (hstep : stepWith opc s = .next t) : t.verboseTrace = s.verboseTrace := by
  have hwait : s.ph ≠ .stepWait := fun hph => by simpa [hoff] using h.stepWaitStepping hph
  have hpause : s.dumpPause = false :=
    Bool.eq_false_of_not_eq_true fun hd => by simpa [hoff] using h.dumpPauseLoads hd
  cases StepNext.of_step hstep with
  | ended hrs ht => exact congrArg State.verboseTrace ht
  | loads hrs hph ht => exact ht ▸ loadStep_verboseTrace hpause
  | stops hrs hph hw ht => exact ht ▸ State.setRs_verboseTrace s _
  | waits hu hp => exact hu.trace hoff hwait
  | illegal u hu hd ht => exact (congrArg State.verboseTrace ht).trans (hu.trace hoff hwait)
  | instr u m hu hd hs =>
    obtain ⟨-, ⟨-, hkeep, -⟩, -⟩ := hs.frame
    exact hkeep.trans (hu.trace hoff hwait)

/-- The stepper is not turned on between `s` and `t`. -/
def NotTurnedOn (s t : State) : Prop := t.stepping = true → s.stepping = true

/-- Off before, the stepper stays off and the trace flag stays as it is. -/
def FlagsFrozen (opc : OpcodeMap) (s t : State) : Prop :=
  s.Inv opc → s.stepping = false → t.stepping = false ∧ t.verboseTrace = s.verboseTrace

theorem runWith_notTurnedOn {n : Nat} (h : runWith opc n s = .next t) : NotTurnedOn s t :=
  runWith_induction (R := NotTurnedOn) (fun _ => id)
    (fun _ _ _ hstep hrest ht => stepWith_stepping hstep (hrest ht)) n s t h

theorem stepWith_flagsFrozen (hstep : stepWith opc s = .next u) (hrest : FlagsFrozen opc u t) :
    FlagsFrozen opc s t := by
  intro h hoff
  have hoff' : u.stepping = false :=
    Bool.eq_false_of_not_eq_true fun hon => by simpa [hoff] using stepWith_stepping hstep hon
  obtain ⟨hst, hv⟩ := hrest (everyStepKeepsInv opc s u h hstep) hoff'
  exact ⟨hst, hv.trans (h.stepWith_verboseTrace hoff hstep)⟩

theorem runWith_flagsFrozen {n : Nat} (h : runWith opc n s = .next t) : FlagsFrozen opc s t :=
  runWith_induction (R := FlagsFrozen opc) (fun _ _ hoff => ⟨hoff, rfl⟩)
    (fun _ _ _ => stepWith_flagsFrozen) n s t h

/-- Settles O27, by induction over the run. -/
theorem stepperOffFreezesTheFlags : Obligations.StepperOffFreezesTheFlags :=
  fun _ _ _ _ hrun => ⟨runWith_flagsFrozen hrun, runWith_notTurnedOn hrun⟩

end Sys2Proof.Machine
end

section
/-!
Separability (45_debug R216): two runs that begin with the same datapath keep the same
datapath, whatever the debug controllers do. No operation of the datapath reads the debug
configuration, so agreement passes through each of them, hence through every instruction and
the engine step; and with the host's answers there, every step reaches its engine step.
-/

namespace Sys2Proof.Machine

variable {opc : OpcodeMap} {n : Nat} {s t u v : State}

/-! ### Agreement passes through the operations of the datapath -/

namespace DatapathAgree

theorem setA (h : DatapathAgree s t) (x : Byte) : DatapathAgree (s.setA x) (t.setA x) :=
  { h with a := rfl }

theorem setPc (h : DatapathAgree s t) (p : PcWord) : DatapathAgree (s.setPc p) (t.setPc p) :=
  { h with pc := rfl }

theorem setRs (h : DatapathAgree s t) (r : RunState) : DatapathAgree (s.setRs r) (t.setRs r) :=
  { h with rs := rfl }

theorem setPh (h : DatapathAgree s t) (p : Phase) : DatapathAgree (s.setPh p) (t.setPh p) :=
  { h with ph := rfl }

theorem setInItems (h : DatapathAgree s t) (l : List InputItem) :
    DatapathAgree (s.setInItems l) (t.setInItems l) :=
  { h with inItems := rfl }

theorem emit (h : DatapathAgree s t) (e : Event) : DatapathAgree (s.emit e) (t.emit e) :=
  { h with events := by simp [h.events] }

theorem memWrite (h : DatapathAgree s t) (cell x : Byte) :
    DatapathAgree (memWrite cell x s) (memWrite cell x t) :=
  { h with mem := by simp [h.mem] }

theorem advance (h : DatapathAgree s t) : DatapathAgree s.advance t.advance := by
  simpa [h.pc] using h.setPc (s.pc + 2)

theorem narrate (h : DatapathAgree s t) (p : PcWord) (m : Mnemonic) (opnd : Byte)
    (w : Option (Byte × Byte)) :
    DatapathAgree (s.narrate p m opnd w) (t.narrate p m opnd w) := by
  simpa [h.a] using h.emit (.narr p m opnd s.a w)

theorem memRead (h : DatapathAgree s t) (addr : Byte) : memRead addr t = memRead addr s :=
  congrArg (Memory.read · addr) h.mem

theorem value (h : DatapathAgree s t) (mode : Mode) (opnd : Byte) :
    value mode opnd t = value mode opnd s := by
  cases mode <;> simp [h.memRead]

theorem target (h : DatapathAgree s t) (mode : TargetMode) (opnd : Byte) :
    target mode opnd t = target mode opnd s :=
  target_congr h.mem mode opnd

/-! ### Agreement passes through every instruction -/

theorem aluMeaning (h : DatapathAgree s t) (f : Byte → Byte → Byte) (m : Mnemonic)
    (mode : Mode) (opnd : Byte) :
    OutcomesAgree (aluMeaning f m mode opnd s) (aluMeaning f m mode opnd t) := by
  unfold Machine.aluMeaning
  rw [h.a, h.pc, h.value]
  exact (h.setA _).advance.narrate _ _ _ _

theorem loadMeaning (h : DatapathAgree s t) (m : Mnemonic) (mode : Mode) (opnd : Byte) :
    OutcomesAgree (loadMeaning m mode opnd s) (loadMeaning m mode opnd t) := by
  unfold Machine.loadMeaning
  rw [h.pc, h.value]
  exact (h.setA _).advance.narrate _ _ _ _

theorem storeMeaning (h : DatapathAgree s t) (m : Mnemonic) (mode : TargetMode)
    (opnd : Byte) : OutcomesAgree (storeMeaning m mode opnd s) (storeMeaning m mode opnd t) := by
  unfold Machine.storeMeaning
  rw [h.a, h.pc, h.target]
  exact (h.memWrite _ _).advance.narrate _ _ _ _

theorem inMeaning (h : DatapathAgree s t) (m : Mnemonic) (mode : TargetMode) (opnd : Byte) :
    OutcomesAgree (inMeaning m mode opnd s) (inMeaning m mode opnd t) := by
  match hi : s.inItems with
  | [] =>
    rw [inMeaning_empty mode hi, inMeaning_empty mode (h.inItems.trans hi)]
    exact h.setPh _
  | .byte b :: rest =>
    rw [inMeaning_byte mode hi, inMeaning_byte mode (h.inItems.trans hi), h.a, h.pc, h.target]
    exact ((((h.setInItems _).setPh _).memWrite _ _).setPc _).emit _
  | .malformed :: rest =>
    rw [inMeaning_malformed mode hi, inMeaning_malformed mode (h.inItems.trans hi)]
    exact (((h.setInItems _).setPh _).emit _).setRs _

theorem outEmit (h : DatapathAgree s t) (m : Mnemonic) (mode : Mode) (opnd : Byte) :
    DatapathAgree (outEmit m mode opnd s) (outEmit m mode opnd t) := by
  unfold Machine.outEmit
  rw [h.pc, h.value]
  exact ((h.emit _).narrate _ _ _ _).setRs _

theorem jumpMeaning (h : DatapathAgree s t) (m : Mnemonic) (opnd : Byte) :
    DatapathAgree ((s.jumpTo opnd).narrate s.pc m opnd none)
      ((t.jumpTo opnd).narrate t.pc m opnd none) := by
  rw [h.pc]
  exact (h.setPc _).narrate _ _ _ _

/-- The condition of a branch reads A alone (R151, R152). -/
theorem branchMeaning (h : DatapathAgree s t) (taken : Byte → Bool) (m : Mnemonic)
    (opnd : Byte) :
    OutcomesAgree (branchMeaning (taken s.a) m opnd s) (branchMeaning (taken t.a) m opnd t) := by
  rw [h.a]
  cases taken s.a with
  | true => exact h.jumpMeaning m opnd
  | false =>
    unfold Machine.branchMeaning
    rw [h.pc]
    exact h.advance.narrate _ _ _ _

theorem exec (h : DatapathAgree s t) (i : Instr) : OutcomesAgree (exec i s) (exec i t) := by
  cases i with
  | addImm | addDir | addInd | subImm | subDir | subInd | nandImm | nandDir | nandInd =>
    exact h.aluMeaning _ _ _ _
  | loadImm | loadDir | loadInd => exact h.loadMeaning _ _ _
  | storeDir | storeInd => exact h.storeMeaning _ _ _
  | inDir | inInd => exact h.inMeaning _ _ _
  | outImm | outDir => exact h.outEmit _ _ _
  | outInd => exact (h.outEmit _ _ _).advance
  | jumpDir => exact h.jumpMeaning _ _
  | brnDir => exact h.branchMeaning isNegative _ _
  | brzDir => exact h.branchMeaning isZero _ _

end DatapathAgree

/-! ### The engine step after the hooks -/

/-- The hooks of two cycles, however different, lead to one datapath (R215), the phase aside,
which the engine step does not read. -/
theorem DatapathAgree.of_inCycle (h : DatapathAgree s t) (hu : InCycle s u)
    (hv : InCycle t v) : DatapathAgree (u.setPh .idle) (v.setPh .idle) where
  a := hv.frame.a.trans (h.a.trans hu.frame.a.symm)
  pc := hv.frame.pc.trans (h.pc.trans hu.frame.pc.symm)
  mem := hv.frame.mem.trans (h.mem.trans hu.frame.mem.symm)
  cyc := by simp [hv.cyc, hu.cyc, h.ph, h.cyc]
  rs := hv.frame.rs.trans (h.rs.trans hu.frame.rs.symm)
  ph := rfl
  inItems := hv.frame.inItems.trans (h.inItems.trans hu.frame.inItems.symm)
  events := by
    obtain ⟨-, -, heu⟩ := hu.frame.eventCounts
    obtain ⟨-, -, hev⟩ := hv.frame.eventCounts
    exact hev.trans (h.events.trans heu.symm)

theorem engineStep_agree (opc : OpcodeMap)
    (h : DatapathAgree (u.setPh .idle) (v.setPh .idle)) :
    OutcomesAgree (engineStep opc u) (engineStep opc v) := by
  have hopc : fetchOpc v = fetchOpc u := fetchOpc_congr h.pc h.mem
  have hopnd : fetchOpnd v = fetchOpnd u := fetchOpnd_congr h.pc h.mem
  cases hd : decodeByte opc (fetchOpc u) with
  | none =>
    have hpc : v.pc = u.pc := h.pc
    rw [engineStep_none hd, engineStep_none (hopc ▸ hd), hopc, hpc]
    exact h.emit _
  | some m =>
    rw [engineStep_some hd, engineStep_some (hopc ▸ hd), hopnd]
    exact h.exec _

/-- The engine step takes no answer of the debug controller's, and leaves the phase IDLE or
in the wait of an IN (R182). -/
theorem engineStep_keeps (h : engineStep opc u = .next t) :
    (t.ph = .idle ∨ t.ph = .inWait) ∧ t.resumes = u.resumes ∧ t.lines = u.lines := by
  rcases engineStep_cases opc u with ⟨-, he⟩ | ⟨m, t', -, he, hs⟩
  · cases he.symm.trans h
    exact ⟨.inl rfl, rfl, rfl⟩
  · cases he.symm.trans h
    obtain ⟨-, -, hresumes, hlines, -⟩ := hs.frame
    exact ⟨(hs.ph_cases rfl).imp id fun hw => congrArg State.ph hw.1, hresumes, hlines⟩

/-! ### Runs with the host's answers there -/

/-- Outside the waits of the debug controller, with its answers there for `n` steps. -/
structure State.Supplied (n : Nat) (s : State) : Prop where
  phase : s.ph = .idle ∨ s.ph = .inWait
  resumes : n ≤ s.resumes
  lines : n ≤ s.lines.length

theorem State.Supplied.of_succ (h : s.Supplied (n + 1)) : s.Supplied n :=
  ⟨h.phase, Nat.le_of_succ_le h.resumes, Nat.le_of_succ_le h.lines⟩

/-- A running cycle with its answers there reaches its engine step, and has taken at most one
answer of each kind. -/
theorem State.Supplied.stepWith_engine (opc : OpcodeMap) (h : s.Supplied (n + 1))
    (hrs : s.rs = .run) (hfetch : fetchable s.pc = true)
    (hwindow : s.ph = .idle → inWindow s.pc = true) :
    ∃ u, InCycle s u ∧ stepWith opc s = engineStep opc u ∧ n ≤ u.resumes ∧
      n ≤ u.lines.length := by
  have hresumes := h.resumes
  have hlines := h.lines
  rcases h.phase with hph | hph
  · have hans := State.answered_of_pos (by omega) (by omega : 0 < s.lines.length)
    obtain ⟨u, hu, hstep, hur, hul⟩ := stepWith_answered opc hrs hph (hwindow hph) hans.1 hans.2
    exact ⟨u, hu, hstep, by omega, by omega⟩
  · have hidle : s.ph ≠ .idle := by simp [hph]
    exact ⟨s, ⟨hrs, by simp [hph], hfetch, hwindow, .refl s, (if_neg hidle).symm, fun _ _ => rfl⟩,
      stepWith_inWait opc hrs hph hfetch, by omega, by omega⟩

/-- Two states with the same datapath, and the debug controller's answers in both for `n`
steps: what R216 compares. -/
structure Lockstep (n : Nat) (s t : State) : Prop where
  agree : DatapathAgree s t
  left : s.Supplied n
  right : t.Supplied n

/-- Two steps that stop alike, or go on with `R` between their next states. -/
inductive StepsTogether (R : State → State → Prop) :
    Host.Outcome State Fault Refusal → Host.Outcome State Fault Refusal → Prop where
  | fault (f : Fault) : StepsTogether R (.fault f) (.fault f)
  | next {s t : State} (h : R s t) : StepsTogether R (.next s) (.next t)

theorem Lockstep.engine (h : Lockstep (n + 1) s t) (hrs : s.rs = .run)
    (hfetch : fetchable s.pc = true) (hwindow : s.ph = .idle → inWindow s.pc = true) :
    StepsTogether (Lockstep n) (stepWith opc s) (stepWith opc t) := by
  obtain ⟨u, hu, hsu, hur, hul⟩ := h.left.stepWith_engine opc hrs hfetch hwindow
  obtain ⟨v, hv, htv, hvr, hvl⟩ := h.right.stepWith_engine opc (h.agree.rs.trans hrs)
    (h.agree.pc ▸ hfetch) (h.agree.pc ▸ h.agree.ph ▸ hwindow)
  obtain ⟨s', hs'⟩ := engineStep_next opc u
  obtain ⟨t', ht'⟩ := engineStep_next opc v
  have hagree := engineStep_agree opc (h.agree.of_inCycle hu hv)
  obtain ⟨hsp, hsr, hsl⟩ := engineStep_keeps hs'
  obtain ⟨htp, htr, htl⟩ := engineStep_keeps ht'
  rw [hs', ht'] at hagree
  rw [hsu, htv, hs', ht']
  exact .next ⟨hagree, ⟨hsp, hsr ▸ hur, hsl ▸ hul⟩, ⟨htp, htr ▸ hvr, htl ▸ hvl⟩⟩

theorem stepWith_inWait_lost (opc : OpcodeMap) (hrs : s.rs = .run) (hph : s.ph = .inWait)
    (hfetch : fetchable s.pc = false) : stepWith opc s = .fault .addressOutOfRange := by
  simp [stepWith, hrs, hph, ifFetchable, hfetch]

theorem Lockstep.ended (h : Lockstep (n + 1) s t) (hs : s.ended) :
    StepsTogether (Lockstep n) (stepWith opc s) (stepWith opc t) := by
  have ht : t.ended := by simpa only [State.ended, h.agree.rs] using hs
  rw [stepWith_ended opc hs, stepWith_ended opc ht]
  exact .next ⟨h.agree, h.left.of_succ, h.right.of_succ⟩

/-- RS, PH and the PC are the datapath's, so both states are in the same case of the step. -/
theorem Lockstep.step (opc : OpcodeMap) (h : Lockstep (n + 1) s t) :
    StepsTogether (Lockstep n) (stepWith opc s) (stepWith opc t) := by
  have hagree := h.agree
  cases hrs : s.rs with
  | fatalInput =>
    rw [stepWith_aborted opc hrs, stepWith_aborted opc (hagree.rs.trans hrs)]
    exact .fault _
  | haltOut => exact h.ended (.inl hrs)
  | stopRange => exact h.ended (.inr hrs)
  | run =>
    have hrs' := hagree.rs.trans hrs
    rcases h.left.phase with hph | hph
    · cases hw : inWindow s.pc with
      | true => exact h.engine hrs (fetchable_of_inWindow hw) fun _ => hw
      | false =>
        rw [stepWith_outside opc hrs hph hw,
          stepWith_outside opc hrs' (hagree.ph.trans hph) (hagree.pc ▸ hw)]
        have hs := h.left.of_succ
        have ht := h.right.of_succ
        exact .next ⟨hagree.setRs _, ⟨hs.phase, hs.resumes, hs.lines⟩,
          ⟨ht.phase, ht.resumes, ht.lines⟩⟩
    · cases hw : fetchable s.pc with
      | true => exact h.engine hrs hw fun hidle => by simp [hph] at hidle
      | false =>
        rw [stepWith_inWait_lost opc hrs hph hw,
          stepWith_inWait_lost opc hrs' (hagree.ph.trans hph) (hagree.pc ▸ hw)]
        exact .fault _

theorem Lockstep.run (opc : OpcodeMap) (h : Lockstep n s t) :
    OutcomesAgree (runWith opc n s) (runWith opc n t) := by
  induction n generalizing s t with
  | zero => exact h.agree
  | succ n ih =>
    have hstep := h.step opc
    generalize hs : stepWith opc s = o, ht : stepWith opc t = p at hstep
    cases hstep with
    | fault f =>
      rw [runWith_succ_fault hs, runWith_succ_fault ht]
      rfl
    | next h' =>
      rw [runWith_succ_next hs, runWith_succ_next ht]
      exact ih h'

/-- Settles O42: agreement with the answers there is kept by every pair of steps, so a run of
any length ends in it. -/
theorem debugControllerLeavesTheDatapathAlone :
    Obligations.DebugControllerLeavesTheDatapathAlone := by
  intro opc n s t h hph hsr hsl htr htl
  exact Lockstep.run opc ⟨h, ⟨hph, hsr, hsl⟩, ⟨h.ph ▸ hph, htr, htl⟩⟩

end Sys2Proof.Machine
end

section
/-!
The exceptions (60_exceptions R240 to R242): a malformed input item is the one cause of an
abort, so a run without one is safe.
-/

namespace Sys2Proof.Machine

variable {opc : OpcodeMap} {s t : State}

/-- R134, R242: the step that aborts a run has a malformed item at the head of its input. -/
theorem head?_inItems_of_stepWith_aborts (hstep : stepWith opc s = .next t)
    (hrun : ¬ s.aborted) (habort : t.aborted) : s.inItems.head? = some .malformed := by
  have hrs : t.rs = .fatalInput := habort
  have hchange : t.rs ≠ s.rs := fun hsame => hrun (hsame.symm.trans hrs)
  rcases runEndsInThreeWaysOnly opc s t hstep hchange with
    ⟨hstop, -⟩ | ⟨hhalt, -⟩ | ⟨-, -, -, -, hhead⟩
  · simp [hstop] at hrs
  · simp [hhalt] at hrs
  · exact hhead

/-- Settles O47: the invariant gives the next state, and an abort would need a malformed
item. -/
theorem wellFormedInputIsSafe : Obligations.WellFormedInputIsSafe := by
  intro opc s h hrun hitems
  obtain ⟨t, hstep⟩ := h.stepWith_next hrun
  exact ⟨t, hstep, fun habort =>
    hitems (List.mem_of_mem_head? (head?_inItems_of_stepWith_aborts hstep hrun habort))⟩

end Sys2Proof.Machine
end

section
/-!
Reset, load and the host (70_reset_and_hazards R270, R271, R281): every move of the host
keeps the invariant, and the loader's moves place a program. What the loader's writes come
to is said once, in `State.loaded`: the memory with the tokens in it and the dump's events.
-/

namespace Sys2Proof.Machine

variable {opc : OpcodeMap} {s t : State} {addr b v : Byte} {tokens : List Byte} {m : Memory}

/-! ### The host's moves (R281) -/

/-- The invariant does not depend on the queues. -/
theorem State.Inv.of_frame (h : s.Inv opc) (ha : t.a = s.a) (hpc : t.pc = s.pc)
    (hmem : t.mem = s.mem) (hseq : SameSequencer s t) (hdebug : SameDebug s t)
    (hevents : t.events = s.events) : t.Inv opc := by
  obtain ⟨hcyc, hrs, hph⟩ := hseq
  obtain ⟨hstepping, -, -, harmed, haddress, hdump, hpause⟩ := hdebug
  have hfires : breakpointFires t = breakpointFires s := by
    simp only [breakpointFires, hpc, harmed, haddress]
  have hfetch : fetchOpc t = fetchOpc s := fetchOpc_congr hpc hmem
  exact
    { memWf := by simpa only [hmem] using h.memWf
      pcBound := by simpa only [hpc] using h.pcBound
      phaseRuns := by simpa only [hph, hrs] using h.phaseRuns
      waitsInWindow := by simpa only [hph, hpc] using h.waitsInWindow
      bpWaitFires := by simpa only [hph, hfires] using h.bpWaitFires
      stepWaitStepping := by simpa only [hph, hstepping] using h.stepWaitStepping
      inWaitIn := by simpa only [hph, hfetch] using h.inWaitIn
      dumpPauseLoads := by simpa only [hph, hpause, hdump, hstepping] using h.dumpPauseLoads
      loadFresh := by simpa only [hph, hcyc, ha] using h.loadFresh
      stopRangeOutside := by simpa only [hrs, hpc] using h.stopRangeOutside
      oneOut := by simpa only [hevents, hrs] using h.oneOut
      oneFatal := by simpa only [hevents, hrs] using h.oneFatal }

/-- Settles O48: a reset establishes the invariant, and the frame of every other move keeps
it. -/
theorem hostMovesKeepInv : Obligations.HostMovesKeepInv := by
  intro opc m s h hmem0
  by_cases hreset : ∃ p, m = .reset p
  · obtain ⟨p, rfl⟩ := hreset
    exact resetWith_inv opc (hmem0 p rfl)
  · obtain ⟨ha, hpc, hmem, hseq, hdebug, hevents⟩ :=
      hostSend_frame (s := s) (not_exists.1 hreset)
    exact h.of_frame ha hpc hmem hseq hdebug hevents

/-! ### The memory the loader's writes leave -/

/-- The tokens written to the cells from `addr` on, as `tokenWrites` orders them. -/
def Memory.writeTokens (m : Memory) : Byte → List Byte → Memory
  | _, [] => m
  | addr, v :: vs => (m.write addr v).writeTokens (addr + 1) vs

/-- A cell before the first token or after the last keeps its byte. -/
theorem Memory.read_writeTokens_outside (hfits : addr.toNat + tokens.length ≤ 256)
    (hb : b.toNat < addr.toNat ∨ addr.toNat + tokens.length ≤ b.toNat) :
    (m.writeTokens addr tokens).read b = m.read b := by
  induction tokens generalizing addr m with
  | nil => rfl
  | cons v vs ih =>
    rw [List.length_cons] at hfits hb
    have hne : b ≠ addr := by
      rintro rfl
      omega
    calc ((m.write addr v).writeTokens (addr + 1) vs).read b
        = (m.write addr v).read b := ih (by bv_omega) (by bv_omega)
      _ = m.read b := by rw [Memory.read_write, if_neg hne]

/-- The cell `k + 1` places after `addr` is the one `k` places after the cell next to it. -/
theorem ofNat_toNat_succ_add (addr : Byte) (k : Nat) :
    BitVec.ofNat 8 ((addr + 1).toNat + k) = BitVec.ofNat 8 (addr.toNat + (k + 1)) := by
  apply BitVec.eq_of_toNat_eq
  rw [BitVec.toNat_ofNat, BitVec.toNat_ofNat]
  bv_omega

/-- R271: token number `k` stands `k` cells after `addr`. -/
theorem Memory.read_writeTokens (hfits : addr.toNat + tokens.length ≤ 256) {k : Nat}
    (hk : k < tokens.length) :
    (m.writeTokens addr tokens).read (BitVec.ofNat 8 (addr.toNat + k)) = tokens[k] := by
  induction tokens generalizing addr m k with
  | nil => simp at hk
  | cons v vs ih =>
    rw [List.length_cons] at hfits
    cases k with
    | zero =>
      rw [Nat.add_zero, BitVec.ofNat_toNat, BitVec.setWidth_eq]
      calc ((m.write addr v).writeTokens (addr + 1) vs).read addr
          = (m.write addr v).read addr :=
            Memory.read_writeTokens_outside (by bv_omega) (by bv_omega)
        _ = v := by rw [Memory.read_write, if_pos rfl]
    | succ k =>
      rw [← ofNat_toNat_succ_add]
      exact ih (by bv_omega) (Nat.lt_of_succ_lt_succ hk)

/-! ### The events of the RAM dump (R220) -/

/-- One DUMP per token, in load order. -/
def dumpEvents (addr : Byte) (tokens : List Byte) : List Event :=
  (List.range tokens.length).map fun k =>
    .dump (BitVec.ofNat 8 (addr.toNat + k)) (tokens.getD k 0)

theorem dumpEvents_nil (addr : Byte) : dumpEvents addr [] = [] := rfl

theorem dumpEvents_cons (addr v : Byte) (vs : List Byte) :
    dumpEvents addr (v :: vs) = .dump addr v :: dumpEvents (addr + 1) vs := by
  simp [dumpEvents, List.range_succ_eq_map, ← ofNat_toNat_succ_add, -BitVec.toNat_add]

/-! ### The run of the loader's moves (R271) -/

/-- The state in which the tokens have been written from `addr` on, and dumped. -/
def State.loaded (s : State) (addr : Byte) (tokens : List Byte) : State :=
  (s.setMem (s.mem.writeTokens addr tokens)).emitAll
    (if s.dumpOnLoad then dumpEvents addr tokens else [])

theorem State.loaded_nil (s : State) (addr : Byte) : s.loaded addr [] = s := by
  simp [State.loaded, State.emitAll, dumpEvents_nil, Memory.writeTokens, State.setMem]

/-- Writing the first token and then the others is writing them all. -/
theorem State.loaded_cons (s : State) (addr v : Byte) (vs : List Byte) :
    (s.loaded addr [v]).loaded (addr + 1) vs = s.loaded addr (v :: vs) := by
  cases hdump : s.dumpOnLoad <;>
    simp [State.loaded, State.emitAll, State.setMem, Memory.writeTokens, dumpEvents_nil,
      dumpEvents_cons, hdump]

/-- The load phase with no dump pause, now or after a cell it loads. -/
structure State.Loading (s : State) : Prop where
  run : s.rs = .run
  load : s.ph = .load
  noPause : s.dumpPause = false
  noStepper : s.dumpOnLoad = true → s.stepping = false

/-- Neither a write nor a queue bears on it. -/
theorem State.Loading.loaded (h : s.Loading) (addr : Byte) (tokens : List Byte) :
    (s.loaded addr tokens).Loading := ⟨h.run, h.load, h.noPause, h.noStepper⟩

theorem State.Loading.setLoads (h : s.Loading) (moves : List LoadMove) :
    (s.setLoads moves).Loading := ⟨h.run, h.load, h.noPause, h.noStepper⟩

theorem State.setDumpPause_self {on : Bool} (h : s.dumpPause = on) : s.setDumpPause on = s := by
  subst h
  rfl

/-- R220: with the stepper off a dump is its event alone. -/
theorem dumpCell_eq (hpause : s.dumpPause = false)
    (hst : s.dumpOnLoad = true → s.stepping = false) (addr v : Byte) :
    dumpCell addr v s = s.emitAll (if s.dumpOnLoad then dumpEvents addr [v] else []) := by
  cases hdump : s.dumpOnLoad with
  | false => simp [dumpCell, hdump]
  | true =>
    have hself : (s.emit (.dump addr v)).setDumpPause s.stepping = s.emit (.dump addr v) :=
      State.setDumpPause_self (hpause.trans (hst hdump).symm)
    simp [dumpCell, hdump, hself, dumpEvents_cons, dumpEvents_nil, ← State.emit_eq_emitAll]

theorem loadStep_write {rest : List LoadMove} (hpause : s.dumpPause = false)
    (hloads : s.loads = .write addr v :: rest) :
    loadStep s = dumpCell addr v (memWrite addr v (s.setLoads rest)) := by
  simp [loadStep, hpause, hloads]

theorem State.Loading.stepWith_write (h : s.Loading) (addr v : Byte)
    (rest : List LoadMove) :
    stepWith opc (s.setLoads (.write addr v :: rest)) =
      .next ((s.loaded addr [v]).setLoads rest) := by
  have hs := h.setLoads (.write addr v :: rest)
  calc stepWith opc (s.setLoads (.write addr v :: rest))
      = .next (dumpCell addr v (memWrite addr v (s.setLoads rest))) :=
        (stepWith_load opc hs.run hs.load).trans (congrArg _ (loadStep_write hs.noPause rfl))
    _ = .next ((s.loaded addr [v]).setLoads rest) :=
        congrArg _ (dumpCell_eq (s := memWrite addr v (s.setLoads rest)) h.noPause h.noStepper
          addr v)

theorem State.Loading.stepWith_run (h : s.Loading) (rest : List LoadMove) :
    stepWith opc (s.setLoads (.run :: rest)) = .next ((s.setLoads rest).setPh .idle) :=
  have hs := h.setLoads (.run :: rest)
  (stepWith_load opc hs.run hs.load).trans (congrArg _ (loadStep_run hs.noPause rfl))

/-- The loader's writes take one step each. -/
theorem State.Loading.runWith_tokenWrites (h : s.Loading) (addr : Byte) (tokens : List Byte)
    (rest : List LoadMove) (n : Nat) :
    runWith opc (tokens.length + n) (s.setLoads (tokenWrites addr tokens ++ rest)) =
      runWith opc n ((s.loaded addr tokens).setLoads rest) := by
  induction tokens generalizing s addr with
  | nil => simp [tokenWrites, s.loaded_nil]
  | cons v vs ih =>
    have hlength : (v :: vs).length + n = (vs.length + n) + 1 := Nat.succ_add vs.length n
    rw [hlength, ← s.loaded_cons]
    exact (runWith_succ_next (h.stepWith_write addr v _) _).trans
      (ih (h.loaded addr [v]) (addr + 1))

theorem loaderScript_eq_some {start : Byte} {moves : List LoadMove}
    (h : loaderScript start tokens = some moves) :
    start.toNat + tokens.length ≤ 256 ∧ moves = tokenWrites start tokens ++ [.run] := by
  simpa [loaderScript, programFits, eq_comm] using h

/-- Settles O7: the writes end in `State.loaded`, the loader's `run` leaves the phase, and
the cells are read off the memory written. -/
theorem loaderPlacesTokensFromStart : Obligations.LoaderPlacesTokensFromStart := by
  intro opc p tokens moves hscript hdbg
  obtain ⟨hfits, rfl⟩ := loaderScript_eq_some hscript
  have hloading : (State.resetWith p).Loading := ⟨rfl, rfl, rfl, hdbg⟩
  have hwrites := hloading.runWith_tokenWrites (opc := opc) p.start tokens [.run] 1
  have hrun := (hloading.loaded p.start tokens).stepWith_run (opc := opc) []
  exact ⟨_, hwrites.trans (runWith_succ_next hrun 0),
    fun _ hk => Memory.read_writeTokens hfits hk,
    fun _ hcell => Memory.read_writeTokens_outside hfits hcell,
    rfl, resetWith_pc_toNat p, rfl, rfl, rfl, ⟨rfl, rfl, rfl, rfl, rfl, rfl, rfl⟩,
    List.nil_append _⟩

end Sys2Proof.Machine
end
